-- ==== Sys2Proof/Word.lean ====
section
/-! DEFINITION. The word types of the core (00_scope.md R6, R9) and their zero extension. -/

namespace Sys2Proof

/-- An 8-bit value: a V register, a timer, a byte of memory, an immediate kk (00_scope.md R6). -/
abbrev Byte := BitVec 8

/-- A 16-bit value: an instruction word, I, pc, a return address (00_scope.md R6). -/
abbrev Word := BitVec 16

/-- A 12-bit value: an immediate address nnn (30_encoding.md R71). -/
abbrev Addr12 := BitVec 12

/-- The number of a V register, 0 to 15 (10_state.md R20); also the number of a key (R28) and a sprite's row count
(30_encoding.md R72), which have the same range. -/
abbrev Nibble := Fin 16

/-- `zext_16(nnn)` (00_scope.md R9). -/
def zextAddr (nnn : Addr12) : Word := nnn.setWidth 16

/-- `zext_16` of a byte (00_scope.md R9). -/
def zextByte (b : Byte) : Word := b.setWidth 16

/-- `bool(c)` as a byte: 1 when c holds and 0 otherwise (00_scope.md R9). -/
def byteOfBool (c : Bool) : Byte := if c then 1 else 0

end Sys2Proof
end

