-- ==== Sys2Proof/Syntax.lean ====
section
/-! DEFINITION. The instructions: one constructor for each row of spec/opcode_table.json, in the order of
30_encoding.md R74. -/

namespace Sys2Proof

/-- The 35 instruction forms (00_scope.md R2, 30_encoding.md R74) with the fields each uses (R71, R73). -/
inductive Instr where
  /-- 00E0, CLS (R140). -/
  | cls
  /-- 00EE, RET (R102). -/
  | ret
  /-- 0NNN, SYS nnn (R108). -/
  | sys (nnn : Addr12)
  /-- 1NNN, JP nnn (R100). -/
  | jp (nnn : Addr12)
  /-- 2NNN, CALL nnn (R101). -/
  | call (nnn : Addr12)
  /-- 3XNN, SE Vx, kk (R103). -/
  | seImm (x : Nibble) (kk : Byte)
  /-- 4XNN, SNE Vx, kk (R104). -/
  | sneImm (x : Nibble) (kk : Byte)
  /-- 5XY0, SE Vx, Vy (R105). -/
  | seReg (x y : Nibble)
  /-- 6XNN, LD Vx, kk (R110). -/
  | ldImm (x : Nibble) (kk : Byte)
  /-- 7XNN, ADD Vx, kk (R111). -/
  | addImm (x : Nibble) (kk : Byte)
  /-- 8XY0, LD Vx, Vy (R121). -/
  | ldReg (x y : Nibble)
  /-- 8XY1, OR Vx, Vy (R122). -/
  | orReg (x y : Nibble)
  /-- 8XY2, AND Vx, Vy (R123). -/
  | andReg (x y : Nibble)
  /-- 8XY3, XOR Vx, Vy (R124). -/
  | xorReg (x y : Nibble)
  /-- 8XY4, ADD Vx, Vy (R125). -/
  | addReg (x y : Nibble)
  /-- 8XY5, SUB Vx, Vy (R126). -/
  | subReg (x y : Nibble)
  /-- 8XY6, SHR Vx, Vy (R127). -/
  | shrReg (x y : Nibble)
  /-- 8XY7, SUBN Vx, Vy (R128). -/
  | subnReg (x y : Nibble)
  /-- 8XYE, SHL Vx, Vy (R129). -/
  | shlReg (x y : Nibble)
  /-- 9XY0, SNE Vx, Vy (R106). -/
  | sneReg (x y : Nibble)
  /-- ANNN, LD I, nnn (R131). -/
  | ldI (nnn : Addr12)
  /-- BNNN, JP V0, nnn (R107). -/
  | jpV0 (nnn : Addr12)
  /-- CXNN, RND Vx, kk (R135). -/
  | rnd (x : Nibble) (kk : Byte)
  /-- DXYN, DRW Vx, Vy, n (R141). -/
  | drw (x y n : Nibble)
  /-- EX9E, SKP Vx (R151). -/
  | skp (x : Nibble)
  /-- EXA1, SKNP Vx (R152). -/
  | sknp (x : Nibble)
  /-- FX07, LD Vx, DT (R160). -/
  | ldVxDt (x : Nibble)
  /-- FX0A, LD Vx, K (R153). -/
  | ldVxK (x : Nibble)
  /-- FX15, LD DT, Vx (R161). -/
  | ldDtVx (x : Nibble)
  /-- FX18, LD ST, Vx (R162). -/
  | ldStVx (x : Nibble)
  /-- FX1E, ADD I, Vx (R132). -/
  | addIVx (x : Nibble)
  /-- FX29, LD F, Vx (R133). -/
  | ldFVx (x : Nibble)
  /-- FX33, LD B, Vx (R170). -/
  | ldBVx (x : Nibble)
  /-- FX55, LD [I], Vx (R171). -/
  | storeRegs (x : Nibble)
  /-- FX65, LD Vx, [I] (R172). -/
  | loadRegs (x : Nibble)
deriving DecidableEq, Repr

end Sys2Proof
end

