-- ==== Sys2Proof/WellFormed.lean ====
section
/-! DEFINITION. Which terms of Instr are instructions. The field types already bound every field; the one thing left to
check is that SYS does not name the two words that 00E0 and 00EE take from class 0. -/

namespace Sys2Proof

/-- 0NNN is "every class-0 word except 0x00E0 and 0x00EE" (40_control_flow.md R108, 30_encoding.md R75). -/
abbrev SysAddressFree (nnn : Addr12) : Prop := nnn ≠ 0x0E0 ∧ nnn ≠ 0x0EE

/-- A term that stands for a word of the opcode map (30_encoding.md R74, R75). -/
def Instr.wellFormed : Instr → Bool
  | .sys nnn => decide (SysAddressFree nnn)
  | .cls | .ret | .jp _ | .call _ | .seImm _ _ | .sneImm _ _ | .seReg _ _ | .ldImm _ _ | .addImm _ _
  | .ldReg _ _ | .orReg _ _ | .andReg _ _ | .xorReg _ _ | .addReg _ _ | .subReg _ _ | .shrReg _ _
  | .subnReg _ _ | .shlReg _ _ | .sneReg _ _ | .ldI _ | .jpV0 _ | .rnd _ _ | .drw _ _ _ | .skp _
  | .sknp _ | .ldVxDt _ | .ldVxK _ | .ldDtVx _ | .ldStVx _ | .addIVx _ | .ldFVx _ | .ldBVx _
  | .storeRegs _ | .loadRegs _ => true

/-- The well-formed instructions, as a proposition. -/
abbrev Instr.WellFormed (i : Instr) : Prop := i.wellFormed = true

end Sys2Proof
end

