-- ==== Sys2Proof/Decode.lean ====
section
/-! DEFINITION. The decoder (30_encoding.md R70 to R80) and, after it, the encoder written from the same opcode map. -/

namespace Sys2Proof

/-! ### Fields of an instruction word (30_encoding.md R71) -/

/-- The nibble `w[lo+3:lo]`. -/
def nibbleAt (w : Word) (lo : Nat) : Nibble := Fin.ofNat 16 (w.toNat >>> lo)

/-- c = w[15:12], the opcode class. -/
def fieldC (w : Word) : Nibble := nibbleAt w 12

/-- x = w[11:8]. -/
def fieldX (w : Word) : Nibble := nibbleAt w 8

/-- y = w[7:4]. -/
def fieldY (w : Word) : Nibble := nibbleAt w 4

/-- n = w[3:0]. -/
def fieldN (w : Word) : Nibble := nibbleAt w 0

/-- kk = w[7:0]. -/
def fieldKK (w : Word) : Byte := w.setWidth 8

/-- nnn = w[11:0]. -/
def fieldNNN (w : Word) : Addr12 := w.setWidth 12

/-! ### The decoder -/

/-- Why some bytes are no instruction. The first five are the rows of 30_encoding.md R77, which a step runs as a no-op
(R80); the last cannot arise from a fetch, which always reads two bytes (R70). -/
inductive DecodeReject where
  /-- 5XYN with n not 0. -/
  | unknownClass5 (w : Word)
  /-- 8XYN with n none of 0 to 7 and E. -/
  | unknownClass8 (w : Word)
  /-- 9XYN with n not 0. -/
  | unknownClass9 (w : Word)
  /-- EXKK with kk neither 9E nor A1. -/
  | unknownClassE (w : Word)
  /-- FXKK with kk none of 07, 0A, 15, 18, 1E, 29, 33, 55, 65. -/
  | unknownClassF (w : Word)
  /-- Fewer than the two bytes of an instruction. -/
  | truncated
deriving DecidableEq, Repr

/-- Class 0: 00E0 and 00EE are tested first, and 0NNN takes the rest (30_encoding.md R75). -/
def decodeClass0 (w : Word) : Instr :=
  if w = 0x00E0 then .cls
  else if w = 0x00EE then .ret
  else .sys (fieldNNN w)

/-- Class 8: the low nibble selects the operation (30_encoding.md R74 rows 11 to 19, R76). -/
def decodeClass8 (w : Word) : Except DecodeReject Instr :=
  match (fieldN w).val with
  | 0x0 => .ok (.ldReg (fieldX w) (fieldY w))
  | 0x1 => .ok (.orReg (fieldX w) (fieldY w))
  | 0x2 => .ok (.andReg (fieldX w) (fieldY w))
  | 0x3 => .ok (.xorReg (fieldX w) (fieldY w))
  | 0x4 => .ok (.addReg (fieldX w) (fieldY w))
  | 0x5 => .ok (.subReg (fieldX w) (fieldY w))
  | 0x6 => .ok (.shrReg (fieldX w) (fieldY w))
  | 0x7 => .ok (.subnReg (fieldX w) (fieldY w))
  | 0xE => .ok (.shlReg (fieldX w) (fieldY w))
  | _ => .error (.unknownClass8 w)

/-- Class E: the low byte selects the key test (30_encoding.md R74 rows 25 and 26, R76). -/
def decodeClassE (w : Word) : Except DecodeReject Instr :=
  if fieldKK w = 0x9E then .ok (.skp (fieldX w))
  else if fieldKK w = 0xA1 then .ok (.sknp (fieldX w))
  else .error (.unknownClassE w)

/-- Class F: the low byte selects the operation (30_encoding.md R74 rows 27 to 35, R76). -/
def decodeClassF (w : Word) : Except DecodeReject Instr :=
  if fieldKK w = 0x07 then .ok (.ldVxDt (fieldX w))
  else if fieldKK w = 0x0A then .ok (.ldVxK (fieldX w))
  else if fieldKK w = 0x15 then .ok (.ldDtVx (fieldX w))
  else if fieldKK w = 0x18 then .ok (.ldStVx (fieldX w))
  else if fieldKK w = 0x1E then .ok (.addIVx (fieldX w))
  else if fieldKK w = 0x29 then .ok (.ldFVx (fieldX w))
  else if fieldKK w = 0x33 then .ok (.ldBVx (fieldX w))
  else if fieldKK w = 0x55 then .ok (.storeRegs (fieldX w))
  else if fieldKK w = 0x65 then .ok (.loadRegs (fieldX w))
  else .error (.unknownClassF w)

/-- Decoding: a total function of the word alone (30_encoding.md R79), by the opcode class (R74, R76). -/
def decode (w : Word) : Except DecodeReject Instr :=
  match (fieldC w).val with
  | 0x0 => .ok (decodeClass0 w)
  | 0x1 => .ok (.jp (fieldNNN w))
  | 0x2 => .ok (.call (fieldNNN w))
  | 0x3 => .ok (.seImm (fieldX w) (fieldKK w))
  | 0x4 => .ok (.sneImm (fieldX w) (fieldKK w))
  | 0x5 => if fieldN w = 0 then .ok (.seReg (fieldX w) (fieldY w)) else .error (.unknownClass5 w)
  | 0x6 => .ok (.ldImm (fieldX w) (fieldKK w))
  | 0x7 => .ok (.addImm (fieldX w) (fieldKK w))
  | 0x8 => decodeClass8 w
  | 0x9 => if fieldN w = 0 then .ok (.sneReg (fieldX w) (fieldY w)) else .error (.unknownClass9 w)
  | 0xA => .ok (.ldI (fieldNNN w))
  | 0xB => .ok (.jpV0 (fieldNNN w))
  | 0xC => .ok (.rnd (fieldX w) (fieldKK w))
  | 0xD => .ok (.drw (fieldX w) (fieldY w) (fieldN w))
  | 0xE => decodeClassE w
  | _ => decodeClassF w -- 0xF: a nibble has no other value left

/-- A big-endian word from its two bytes, the high byte at the lower address (30_encoding.md R70, 20_memory.md R55). -/
def wordOfBytes (hi lo : Byte) : Word := (hi ++ lo : BitVec 16)

/-- The two bytes of a word as memory stores them, lower address first (20_memory.md R55). -/
def highByte (w : Word) : Byte := (w >>> 8).setWidth 8

/-- The byte at the higher address (20_memory.md R55). -/
def lowByte (w : Word) : Byte := w.setWidth 8

/-- Decoding the bytes at the front of a list: the instruction and the rest of the bytes (30_encoding.md R70: every
instruction is two bytes). -/
def decodeBytes : List Byte → Except DecodeReject (Instr × List Byte)
  | hi :: lo :: rest =>
    match decode (wordOfBytes hi lo) with
    | .ok i => .ok (i, rest)
    | .error e => .error e
  | _ => .error .truncated

/-- The word whose bits above `nbits` are 0, as opcode_table.json numbers them: the only word is the first, bit 0 its
least significant bit. -/
def tableWord (nbits w : Nat) : Word := BitVec.ofNat 16 (w % 2 ^ nbits)

/-- What the decoder reads from a row of opcode_table.json: the word is laid out high byte first and decoded. -/
def decodeTableWord (nbits w : Nat) : Option Instr :=
  match decodeBytes [highByte (tableWord nbits w), lowByte (tableWord nbits w)] with
  | .ok (i, _) => some i
  | .error _ => none

/-! ### The encoder -/

/-- A row of the opcode map: the bits a form fixes (30_encoding.md R74). -/
structure OpcodeRow where
  pattern : Word
  mask : Word
deriving DecidableEq, Repr

/-- A word selects a row when `(w & mask) = match` (30_encoding.md R74). -/
abbrev OpcodeRow.Selects (r : OpcodeRow) (w : Word) : Prop := w &&& r.mask = r.pattern

/-- Rows 1 to 10 of 30_encoding.md R74. -/
def opcodeRowsA : List OpcodeRow :=
  [⟨0x00E0, 0xFFFF⟩, ⟨0x00EE, 0xFFFF⟩, ⟨0x0000, 0xF000⟩, ⟨0x1000, 0xF000⟩, ⟨0x2000, 0xF000⟩,
   ⟨0x3000, 0xF000⟩, ⟨0x4000, 0xF000⟩, ⟨0x5000, 0xF00F⟩, ⟨0x6000, 0xF000⟩, ⟨0x7000, 0xF000⟩]

/-- Rows 11 to 24 of 30_encoding.md R74. -/
def opcodeRowsB : List OpcodeRow :=
  [⟨0x8000, 0xF00F⟩, ⟨0x8001, 0xF00F⟩, ⟨0x8002, 0xF00F⟩, ⟨0x8003, 0xF00F⟩, ⟨0x8004, 0xF00F⟩,
   ⟨0x8005, 0xF00F⟩, ⟨0x8006, 0xF00F⟩, ⟨0x8007, 0xF00F⟩, ⟨0x800E, 0xF00F⟩, ⟨0x9000, 0xF00F⟩,
   ⟨0xA000, 0xF000⟩, ⟨0xB000, 0xF000⟩, ⟨0xC000, 0xF000⟩, ⟨0xD000, 0xF000⟩]

/-- Rows 25 to 35 of 30_encoding.md R74. -/
def opcodeRowsC : List OpcodeRow :=
  [⟨0xE09E, 0xF0FF⟩, ⟨0xE0A1, 0xF0FF⟩, ⟨0xF007, 0xF0FF⟩, ⟨0xF00A, 0xF0FF⟩, ⟨0xF015, 0xF0FF⟩,
   ⟨0xF018, 0xF0FF⟩, ⟨0xF01E, 0xF0FF⟩, ⟨0xF029, 0xF0FF⟩, ⟨0xF033, 0xF0FF⟩, ⟨0xF055, 0xF0FF⟩,
   ⟨0xF065, 0xF0FF⟩]

/-- The opcode map (30_encoding.md R74), its 35 rows in order. -/
def opcodeRows : List OpcodeRow := opcodeRowsA ++ opcodeRowsB ++ opcodeRowsC

/-- The row of each form (30_encoding.md R74). -/
def Instr.row : Instr → OpcodeRow
  | .cls => ⟨0x00E0, 0xFFFF⟩
  | .ret => ⟨0x00EE, 0xFFFF⟩
  | .sys _ => ⟨0x0000, 0xF000⟩
  | .jp _ => ⟨0x1000, 0xF000⟩
  | .call _ => ⟨0x2000, 0xF000⟩
  | .seImm _ _ => ⟨0x3000, 0xF000⟩
  | .sneImm _ _ => ⟨0x4000, 0xF000⟩
  | .seReg _ _ => ⟨0x5000, 0xF00F⟩
  | .ldImm _ _ => ⟨0x6000, 0xF000⟩
  | .addImm _ _ => ⟨0x7000, 0xF000⟩
  | .ldReg _ _ => ⟨0x8000, 0xF00F⟩
  | .orReg _ _ => ⟨0x8001, 0xF00F⟩
  | .andReg _ _ => ⟨0x8002, 0xF00F⟩
  | .xorReg _ _ => ⟨0x8003, 0xF00F⟩
  | .addReg _ _ => ⟨0x8004, 0xF00F⟩
  | .subReg _ _ => ⟨0x8005, 0xF00F⟩
  | .shrReg _ _ => ⟨0x8006, 0xF00F⟩
  | .subnReg _ _ => ⟨0x8007, 0xF00F⟩
  | .shlReg _ _ => ⟨0x800E, 0xF00F⟩
  | .sneReg _ _ => ⟨0x9000, 0xF00F⟩
  | .ldI _ => ⟨0xA000, 0xF000⟩
  | .jpV0 _ => ⟨0xB000, 0xF000⟩
  | .rnd _ _ => ⟨0xC000, 0xF000⟩
  | .drw _ _ _ => ⟨0xD000, 0xF000⟩
  | .skp _ => ⟨0xE09E, 0xF0FF⟩
  | .sknp _ => ⟨0xE0A1, 0xF0FF⟩
  | .ldVxDt _ => ⟨0xF007, 0xF0FF⟩
  | .ldVxK _ => ⟨0xF00A, 0xF0FF⟩
  | .ldDtVx _ => ⟨0xF015, 0xF0FF⟩
  | .ldStVx _ => ⟨0xF018, 0xF0FF⟩
  | .addIVx _ => ⟨0xF01E, 0xF0FF⟩
  | .ldFVx _ => ⟨0xF029, 0xF0FF⟩
  | .ldBVx _ => ⟨0xF033, 0xF0FF⟩
  | .storeRegs _ => ⟨0xF055, 0xF0FF⟩
  | .loadRegs _ => ⟨0xF065, 0xF0FF⟩

/-- x placed at w[11:8] (30_encoding.md R71). -/
def placeX (x : Nibble) : Word := BitVec.ofNat 16 (x.val * 256)

/-- y placed at w[7:4] (30_encoding.md R71). -/
def placeY (y : Nibble) : Word := BitVec.ofNat 16 (y.val * 16)

/-- n placed at w[3:0] (30_encoding.md R71). -/
def placeN (n : Nibble) : Word := BitVec.ofNat 16 n.val

/-- The bits that the fields of a form add to its row's fixed bits, by its format (30_encoding.md R73). -/
def Instr.fieldBits : Instr → Word
  | .cls | .ret => 0
  | .sys nnn | .jp nnn | .call nnn | .ldI nnn | .jpV0 nnn => zextAddr nnn
  | .seImm x kk | .sneImm x kk | .ldImm x kk | .addImm x kk | .rnd x kk => placeX x ||| zextByte kk
  | .seReg x y | .ldReg x y | .orReg x y | .andReg x y | .xorReg x y | .addReg x y | .subReg x y
  | .shrReg x y | .subnReg x y | .shlReg x y | .sneReg x y => placeX x ||| placeY y
  | .drw x y n => placeX x ||| placeY y ||| placeN n
  | .skp x | .sknp x | .ldVxDt x | .ldVxK x | .ldDtVx x | .ldStVx x | .addIVx x | .ldFVx x | .ldBVx x
  | .storeRegs x | .loadRegs x => placeX x

/-- The word of an instruction (30_encoding.md R73, R74). -/
def encode (i : Instr) : Word := i.row.pattern ||| i.fieldBits

end Sys2Proof
end

