-- ==== Sys2Proof/Config.lean ====
section
/-! DEFINITION. The fixed values of the hardware (00_scope.md R6), the parameters the spec leaves to the implementation
(R7), and the values it leaves open. -/

namespace Sys2Proof

/-- MEM_SIZE (00_scope.md R6). -/
def memSize : Nat := 4096

/-- PROGRAM_BASE and PC_RESET (00_scope.md R6). -/
def programBase : Nat := 0x200

/-- PROGRAM_MAX = 4096 - 0x200 (00_scope.md R6). -/
def programMax : Nat := 3584

/-- FONT_BASE (00_scope.md R6). -/
def fontBase : Nat := 0

/-- The values of BLOCK_TRANSFER_I_MODE: whether FX55 and FX65 change I (48_block_transfer.md R173). -/
inductive BlockTransferIMode where
  | keep
  | advance
deriving DecidableEq, Repr, Inhabited

/-- The values of KEY_INDEX_POLICY: how EX9E and EXA1 treat a key index above 15 (46_keypad.md R150). -/
inductive KeyIndexPolicy where
  | mask
  | fault
deriving DecidableEq, Repr, Inhabited

/-- One font sprite: 5 bytes, top row first (20_memory.md R54). -/
abbrev Glyph := Vector Byte 5

/-- FONT: the 16 glyphs, glyph d at address 5*d (20_memory.md R53, R54). -/
abbrev Font := Vector Glyph 16

/-- The default of FONT: the table of 20_memory.md R54, row by row. -/
def defaultFont : Font :=
  #v[#v[0xF0, 0x90, 0x90, 0x90, 0xF0], #v[0x20, 0x60, 0x20, 0x20, 0x70],
     #v[0xF0, 0x10, 0xF0, 0x80, 0xF0], #v[0xF0, 0x10, 0xF0, 0x10, 0xF0],
     #v[0x90, 0x90, 0xF0, 0x10, 0x10], #v[0xF0, 0x80, 0xF0, 0x10, 0xF0],
     #v[0xF0, 0x80, 0xF0, 0x90, 0xF0], #v[0xF0, 0x10, 0x20, 0x40, 0x40],
     #v[0xF0, 0x90, 0xF0, 0x90, 0xF0], #v[0xF0, 0x90, 0xF0, 0x10, 0xF0],
     #v[0xF0, 0x90, 0xF0, 0x90, 0x90], #v[0xE0, 0x90, 0xE0, 0x90, 0xE0],
     #v[0xF0, 0x80, 0x80, 0x80, 0xF0], #v[0xE0, 0x90, 0x90, 0x90, 0xE0],
     #v[0xF0, 0x80, 0xF0, 0x80, 0xF0], #v[0xF0, 0x80, 0xF0, 0x80, 0x80]]

/-- The implementation parameters of 00_scope.md R7 (a) to (d). DESIGN CHOICE (log 1): State holds one such record, which
nothing changes, so that a claim about every state is a claim about every value of the parameters. -/
structure Config where
  /-- STACK_DEPTH, legal 12 to 16 (R7 (a), 10_state.md R24). -/
  stackDepth : Nat
  /-- BLOCK_TRANSFER_I_MODE (R7 (b), 48_block_transfer.md R173). -/
  blockTransferIMode : BlockTransferIMode
  /-- KEY_INDEX_POLICY (R7 (c), 46_keypad.md R150). -/
  keyIndexPolicy : KeyIndexPolicy
  /-- FONT (R7 (d), 20_memory.md R54). -/
  font : Font
deriving DecidableEq, Repr

/-- BLOCK_TRANSFER_I_MODE of the machine at reset. The spec calls it OPEN and says that no default is normative
(00_scope.md R7 (b)), so nothing is known of this constant (log 3). -/
opaque Config.openBlockTransferIMode : BlockTransferIMode

/-- The free random bytes (44_random.md R135: a free draw over all 256 values): the k-th byte drawn. Nothing is known of
it (log 6). -/
opaque Config.freeRnd : Nat → Byte

/-- Whether the implementation emits the optional event UNKNOWN_OPCODE(a0, w) (30_encoding.md R80: "may also emit").
Nothing is known of it, and no state depends on it (log 8). -/
opaque Config.emitsUnknownOpcode : Word → Word → Bool

/-- The parameter values of the reset machine: the defaults shown in 00_scope.md R7, and the OPEN mode left open
(logs 2 to 5). -/
def Config.default : Config where
  stackDepth := 16
  blockTransferIMode := Config.openBlockTransferIMode
  keyIndexPolicy := .mask
  font := defaultFont

/-- The legal range of STACK_DEPTH (00_scope.md R7 (a)). -/
abbrev Config.Legal (cfg : Config) : Prop := 12 ≤ cfg.stackDepth ∧ cfg.stackDepth ≤ 16

end Sys2Proof
end

