-- ==== Sys2Proof/Machine/State.lean ====
section
/-! DEFINITION. The state of the core (10_state.md), the reasons a step can stop, and the state after reset. -/

namespace Sys2Proof.Machine

/-- The memory: the cells of 0x000 to 0xFFF that differ from their reset content, addresses strictly rising
(10_state.md R30; the reset content is 20_memory.md R53, R54; the canonical form is Memory.WF in Machine/Ops.lean). -/
abbrev Memory := List Host.Cell

/-- The display buffer, row-major: row y, column x is `Pix(x, y)`, element y * 64 + x of the 2048 pixels
(10_state.md R29). -/
abbrev Display := Vector (Vector Bool 64) 32

/-- The fault status register (10_state.md R31, 60_exceptions.md R201). -/
inductive FaultStatus where
  /-- NONE, code 0. -/
  | none
  /-- STACK_OVERFLOW, code 1: 2NNN with a full stack. -/
  | stackOverflow
  /-- STACK_UNDERFLOW, code 2: 00EE with an empty stack. -/
  | stackUnderflow
  /-- KEY_INDEX_RANGE, code 3: EX9E and EXA1 with V[x] above 15, only under KEY_INDEX_POLICY = FAULT. -/
  | keyIndexRange
deriving DecidableEq, Repr

/-- The state: every element of 10_state.md R33, the parameters of 00_scope.md R7 (log 1), and the model's own two fields
for the free random byte (log 6). -/
structure State where
  /-- V[0..15]; V[15] is VF (10_state.md R20, R21). -/
  V : Vector Byte 16
  /-- The index register (10_state.md R23). -/
  I : Word
  /-- The program counter (10_state.md R22). -/
  pc : Word
  /-- stack[0..STACK_DEPTH-1] (10_state.md R24). -/
  stack : List Word
  /-- The count of occupied stack slots (10_state.md R24). -/
  sp : Nat
  /-- The delay timer (10_state.md R27). -/
  DT : Byte
  /-- The sound timer (10_state.md R27). -/
  ST : Byte
  /-- Key(0..15), true means pressed (10_state.md R28). -/
  keys : Vector Bool 16
  /-- The display buffer, true means lit (10_state.md R29). -/
  display : Display
  /-- The memory (10_state.md R30). -/
  mem : Memory
  /-- The fault status register (10_state.md R31). -/
  fault : FaultStatus
  /-- The implementation parameters (00_scope.md R7 (a) to (d); log 1). Nothing writes them. -/
  cfg : Config
  /-- The model's own (log 6): the random byte the next CXNN takes (00_scope.md R7 (e), 44_random.md R135). -/
  rnd : Byte
  /-- The model's own (log 6): how many free bytes have been drawn. -/
  draws : Nat
deriving DecidableEq, Repr

/-- Why a step stops with a Lean fault. The faults of 60_exceptions.md R201 are none of these: they are next states whose
`fault` register is set. -/
inductive Fault where
  /-- Raised by 2NNN and 00EE when `sp` points at a slot the stack array does not have. 10_state.md R24 makes the array
  STACK_DEPTH long and sp at most STACK_DEPTH, so no run reaches such a state. Safe (log 7). -/
  | stackSlotAbsent
deriving DecidableEq, Repr

/-- Why a step refuses an instruction. -/
inductive Refusal where
  /-- Raised by an arm of exec that has no meaning yet. Safe. No arm raises it: every instruction is modelled. -/
  | notModelled (mnemonic : String)
deriving DecidableEq, Repr

/-- An all-false display (70_reset_and_hazards.md R231). -/
def Display.clear : Display := Vector.replicate 32 (Vector.replicate 64 false)

/-- The reset values of 10_state.md R33 for a core with the parameters `cfg`, whose next random byte is `rnd` and which
has drawn `draws` of them (70_reset_and_hazards.md R231). -/
def State.resetWith (cfg : Config) (rnd : Byte) (draws : Nat) : State where
  V := Vector.replicate 16 0
  I := 0
  pc := 0x200
  stack := List.replicate cfg.stackDepth 0
  sp := 0
  DT := 0
  ST := 0
  keys := Vector.replicate 16 false
  display := Display.clear
  mem := []
  fault := .none
  cfg := cfg
  rnd := rnd
  draws := draws

/-- The machine right after reset and right after construction (70_reset_and_hazards.md R230, R231), with the default
parameters of 00_scope.md R7 (logs 1 to 5) and a free first random byte (log 6). -/
def State.reset : State := State.resetWith Config.default (Config.freeRnd 0) 1

end Sys2Proof.Machine
end

