-- ==== Sys2Proof/Machine/Ops.lean ====
section
/-! DEFINITION. The shared operations over memory, registers, stack, keypad and display, the instruction fetch, and fault
entry. -/

namespace Sys2Proof.Machine

/-! ### Memory (20_memory.md) -/

/-- What an address that memory does not list reads as: its reset content, the font at 0x000 to 0x04F and 0x00 above
(20_memory.md R53, R54, R59: "If the address was never written, the read returns its reset value"). -/
def Memory.unlisted (font : Font) (a : Nat) : Byte :=
  if h : a < 80 then (font[a / 5])[a % 5] else 0

/-- The canonical form: addresses strictly rising, all inside the 4096 bytes, and no cell equal to what an unlisted
address reads as. -/
abbrev Memory.WF (font : Font) (m : Memory) : Prop :=
  m.Pairwise (fun c d => c.1 < d.1) ∧ ∀ c ∈ m, c.1 < memSize ∧ c.2 ≠ Memory.unlisted font c.1

/-- The byte at an address (already masked). -/
def Memory.read (font : Font) : Memory → Nat → Byte
  | [], a => Memory.unlisted font a
  | (b, u) :: m, a => if a = b then u else Memory.read font m a

/-- Lists a cell at its place in the rising order. -/
def Memory.insert : Memory → Nat → Byte → Memory
  | [], a, v => [(a, v)]
  | (b, u) :: m, a, v =>
    if a < b then (a, v) :: (b, u) :: m
    else if a = b then (a, v) :: m
    else (b, u) :: Memory.insert m a v

/-- Writes a byte at an address (already masked). A byte equal to the reset content is not listed. -/
def Memory.write (font : Font) (m : Memory) (a : Nat) (v : Byte) : Memory :=
  if v = Memory.unlisted font a then m.filter (fun c => c.1 ≠ a) else Memory.insert m a v

/-- The 12-bit mask `& 0xFFF` of every access, taken after the unbounded sum (20_memory.md R51). -/
def maskAddr (a : Nat) : Nat := a &&& 0xFFF

/-- `MemRead(a, 1)` (20_memory.md R51). -/
def State.readByte (s : State) (a : Nat) : Byte := Memory.read s.cfg.font s.mem (maskAddr a)

/-- `MemRead(a, 2)`: big-endian, each address masked separately (20_memory.md R51, R56). -/
def State.readWord (s : State) (a : Nat) : Word := wordOfBytes (s.readByte a) (s.readByte (a + 1))

/-- `MemWrite(a, 1, v)` (20_memory.md R52). -/
def State.writeByte (s : State) (a : Nat) (v : Byte) : State :=
  { s with mem := Memory.write s.cfg.font s.mem (maskAddr a) v }

/-- A multi-byte store: single-byte writes in ascending offset order (20_memory.md R52). -/
def State.writeBytes (s : State) (a : Nat) : List Byte → State
  | [] => s
  | b :: bs => (s.writeByte a b).writeBytes (a + 1) bs

/-! ### Registers (10_state.md) -/

/-- The index of VF (10_state.md R21). -/
def flagReg : Nibble := 15

/-- `V[x]` (10_state.md R20). -/
def State.getV (s : State) (x : Nibble) : Byte := s.V[x]

/-- `V[x] <- v` (10_state.md R20). -/
def State.setV (s : State) (x : Nibble) (v : Byte) : State := { s with V := s.V.set x v }

/-- `V[x] <- result`, then `VF <- flag`: the flag is written last, so it stays when x = F (42_alu.md R120 (d),
00_scope.md R10). -/
def State.setVThenFlag (s : State) (x : Nibble) (result flag : Byte) : State :=
  (s.setV x result).setV flagReg flag

/-- `I <- v` (10_state.md R23). -/
def State.setI (s : State) (v : Word) : State := { s with I := v }

/-- `pc <- target` (10_state.md R22). -/
def State.setPc (s : State) (v : Word) : State := { s with pc := v }

/-- `DT <- v` (10_state.md R27). -/
def State.setDT (s : State) (v : Byte) : State := { s with DT := v }

/-- `ST <- v` (10_state.md R27). -/
def State.setST (s : State) (v : Byte) : State := { s with ST := v }

/-- The display is replaced (10_state.md R29). -/
def State.setDisplay (s : State) (d : Display) : State := { s with display := d }

/-- The fault status register is written (10_state.md R31). -/
def State.setFault (s : State) (f : FaultStatus) : State := { s with fault := f }

/-- The next free random byte is drawn, after CXNN has taken the current one (44_random.md R135; log 6). -/
def State.drawRnd (s : State) : State :=
  { s with rnd := Config.freeRnd s.draws, draws := s.draws + 1 }

/-! ### Fetch and control flow (30_encoding.md R82) -/

/-- The instruction word at pc, `MemRead(pc, 2)` (30_encoding.md R70, R82). -/
def State.fetchWord (s : State) : Word := s.readWord s.pc.toNat

/-- `pc <- pc + 2`: the fetch's advance, and the further advance of a skip taken (30_encoding.md R82). -/
def State.advance (s : State) : State := s.setPc (s.pc + 2)

/-- a0, the address of the instruction being executed: during the execute phase pc holds a0 + 2 mod 65536
(10_state.md R22, 30_encoding.md R82). -/
def State.a0 (s : State) : Word := s.pc - 2

/-- The skip convention: one more instruction width when the condition holds (40_control_flow.md). -/
def State.skipIf (s : State) (c : Bool) : State := if c then s.advance else s

/-- Fault entry, `raise Fault(code)` of 60_exceptions.md R202: pc goes back to a0, `fault` takes the code, and nothing
else changes. The spec gives no return from it: only reset clears it (60_exceptions.md R204, R205). -/
def State.raiseFault (s : State) (code : FaultStatus) : State := (s.setPc s.a0).setFault code

/-! ### Call stack (10_state.md R24, R25) -/

/-- `stack[sp] <- v ; sp <- sp + 1`, the part of Push after its check; none where the array has no slot sp (log 7). -/
def State.push (s : State) (v : Word) : Option State :=
  if s.sp < s.stack.length then some { s with stack := s.stack.set s.sp v, sp := s.sp + 1 } else none

/-- `sp <- sp - 1 ; return stack[sp]`, the part of Pop after its check; the slot keeps its value. None where the array has
no such slot (log 7). -/
def State.pop (s : State) : Option (Word × State) :=
  match s.stack[s.sp - 1]? with
  | some v => some (v, { s with sp := s.sp - 1 })
  | none => none

/-! ### Keypad (10_state.md R28) -/

/-- `Key(k)`. -/
def State.keyDown (s : State) (k : Nibble) : Bool := s.keys[k]

/-- `Key(k) <- pressed`, the effect of set_key (46_keypad.md R154). -/
def State.setKey (s : State) (k : Nibble) (pressed : Bool) : State := { s with keys := s.keys.set k pressed }

/-- The registers V0 to VF, and the keys 0 to 15, in ascending order. -/
def allNibbles : List Nibble := [0, 1, 2, 3, 4, 5, 6, 7, 8, 9, 10, 11, 12, 13, 14, 15]

/-- The lowest-numbered pressed key, `min { k | Key(k) }`, or none when no key is pressed (46_keypad.md R153). -/
def State.lowestKey (s : State) : Option Nibble := allNibbles.find? s.keyDown

/-! ### Display (10_state.md R29, 45_display.md) -/

/-- `Pix(x, y)` of a display. -/
def Display.pix (d : Display) (x : Fin 64) (y : Fin 32) : Bool := (d[y])[x]

/-- `Pix(x, y) <- not Pix(x, y)` (45_display.md R141). -/
def Display.flip (d : Display) (x : Fin 64) (y : Fin 32) : Display := d.set y ((d[y]).set x (!d.pix x y))

/-- `Pix(x, y)` (10_state.md R29). -/
def State.pix (s : State) (x : Fin 64) (y : Fin 32) : Bool := s.display.pix x y

/-- What the sprite-draw unit carries from pixel to pixel: the display, and whether a lit pixel was unset
(45_display.md R141, `hit`). -/
structure Drawing where
  display : Display
  hit : Bool
deriving DecidableEq, Repr

/-- One set sprite bit: the pixel is flipped, and `hit` records that it was lit (45_display.md R141). -/
def Drawing.flip (g : Drawing) (x : Fin 64) (y : Fin 32) : Drawing :=
  ⟨g.display.flip x y, g.hit || g.display.pix x y⟩

/-- The columns of a sprite row, in the order of the loop of 45_display.md R141. -/
def spriteColumns : List Nat := [0, 1, 2, 3, 4, 5, 6, 7]

/-- Column c of a sprite row is bit 7 - c of its byte: bit 7 is the leftmost (45_display.md R142). -/
def spriteBit (b : Byte) (c : Nat) : Bool := b.getLsbD (7 - c)

/-- The inner loop of 45_display.md R141 over the given columns of row r: `px = (ox + c) mod 64`, `py = (oy + r) mod 32`,
each coordinate wrapping separately. -/
def Drawing.row (ox oy r : Nat) (b : Byte) : List Nat → Drawing → Drawing
  | [], g => g
  | c :: cs, g =>
    Drawing.row ox oy r b cs
      (if spriteBit b c then g.flip (Fin.ofNat 64 (ox + c)) (Fin.ofNat 32 (oy + r)) else g)

/-- The outer loop of 45_display.md R141 over the given rows: row r is the byte at I + r, address masked. -/
def State.drawRows (s : State) (ox oy : Nat) : List Nat → Drawing → Drawing
  | [], g => g
  | r :: rs, g => s.drawRows ox oy rs (Drawing.row ox oy r (s.readByte (s.I.toNat + r)) spriteColumns g)

end Sys2Proof.Machine
end

