-- ==== Sys2Proof/Machine/Flags.lean ====
section
/-! DEFINITION. The values VF takes (10_state.md R21): carry, NOT borrow, the bit a shift moves out, collision. -/

namespace Sys2Proof.Machine

/-- Carry of 8XY4: 1 when the 9-bit sum exceeds 255 (42_alu.md R125). -/
def carryFlag (a b : Byte) : Byte := byteOfBool (decide (a.toNat + b.toNat > 255))

/-- NOT borrow of a - b: 1 when a >= b (42_alu.md R126, R128). -/
def notBorrowFlag (a b : Byte) : Byte := byteOfBool (decide (a.toNat ≥ b.toNat))

/-- The bit a right shift moves out: bit 0 (42_alu.md R127). -/
def shiftedOutRight (v : Byte) : Byte := v &&& 0x01

/-- The bit a left shift moves out: bit 7 (42_alu.md R129). -/
def shiftedOutLeft (v : Byte) : Byte := (v >>> 7) &&& 0x01

/-- Collision of DXYN (45_display.md R141). -/
def collisionFlag (hit : Bool) : Byte := byteOfBool hit

end Sys2Proof.Machine
end

