-- ==== Sys2Proof/Machine/Alu.lean ====
section
/-! DEFINITION. The meanings of the register ALU, class 8 (42_alu.md). Both operands are read before any write, and a flag
is written last (R120). -/

namespace Sys2Proof.Machine

/-- 8XY0, LD Vx, Vy (42_alu.md R121). -/
def execLdReg (x y : Nibble) (s : State) : Host.Outcome State Fault Refusal :=
  .next (s.setV x (s.getV y))

/-- 8XY1, OR Vx, Vy (42_alu.md R122); VF is not written. -/
def execOrReg (x y : Nibble) (s : State) : Host.Outcome State Fault Refusal :=
  .next (s.setV x (s.getV x ||| s.getV y))

/-- 8XY2, AND Vx, Vy (42_alu.md R123); VF is not written. -/
def execAndReg (x y : Nibble) (s : State) : Host.Outcome State Fault Refusal :=
  .next (s.setV x (s.getV x &&& s.getV y))

/-- 8XY3, XOR Vx, Vy (42_alu.md R124); VF is not written. -/
def execXorReg (x y : Nibble) (s : State) : Host.Outcome State Fault Refusal :=
  .next (s.setV x (s.getV x ^^^ s.getV y))

/-- 8XY4, ADD Vx, Vy (42_alu.md R125): sum mod 256, then VF = carry. -/
def execAddReg (x y : Nibble) (s : State) : Host.Outcome State Fault Refusal :=
  .next (s.setVThenFlag x (s.getV x + s.getV y) (carryFlag (s.getV x) (s.getV y)))

/-- 8XY5, SUB Vx, Vy (42_alu.md R126): vx - vy mod 256, then VF = NOT borrow. -/
def execSubReg (x y : Nibble) (s : State) : Host.Outcome State Fault Refusal :=
  .next (s.setVThenFlag x (s.getV x - s.getV y) (notBorrowFlag (s.getV x) (s.getV y)))

/-- 8XY6, SHR Vx, Vy (42_alu.md R127): the source is Vy, then VF = the bit shifted out. -/
def execShrReg (x y : Nibble) (s : State) : Host.Outcome State Fault Refusal :=
  .next (s.setVThenFlag x (s.getV y >>> 1) (shiftedOutRight (s.getV y)))

/-- 8XY7, SUBN Vx, Vy (42_alu.md R128): vy - vx mod 256, then VF = NOT borrow. -/
def execSubnReg (x y : Nibble) (s : State) : Host.Outcome State Fault Refusal :=
  .next (s.setVThenFlag x (s.getV y - s.getV x) (notBorrowFlag (s.getV y) (s.getV x)))

/-- 8XYE, SHL Vx, Vy (42_alu.md R129): the source is Vy, then VF = the bit shifted out. -/
def execShlReg (x y : Nibble) (s : State) : Host.Outcome State Fault Refusal :=
  .next (s.setVThenFlag x (s.getV y <<< 1) (shiftedOutLeft (s.getV y)))

end Sys2Proof.Machine
end

