-- ==== Sys2Proof/Machine/Operands.lean ====
section
/-! DEFINITION. The operand forms beyond plain register and immediate operands: the key index, the glyph address, the
decimal digits, the register range of a block transfer and its effect on I. -/

namespace Sys2Proof.Machine

/-- `KeyIndex(V[x])` (46_keypad.md R150): under MASK the low nibble; under FAULT none when V[x] is above 0x0F. -/
def State.keyIndex (s : State) (x : Nibble) : Option Nibble :=
  if s.cfg.keyIndexPolicy = .fault ∧ 0x0F < (s.getV x).toNat then none
  else some (Fin.ofNat 16 (s.getV x).toNat)

/-- `FONT_BASE + 5 * (V[x] & 0x0F)` (43_index.md R133). -/
def glyphAddress (v : Byte) : Word := BitVec.ofNat 16 (fontBase + 5 * (v &&& 0x0F).toNat)

/-- Hundreds, tens and ones of a byte (48_block_transfer.md R170). -/
def decimalDigits (v : Byte) : List Byte :=
  [BitVec.ofNat 8 (v.toNat / 100), BitVec.ofNat 8 (v.toNat / 10 % 10), BitVec.ofNat 8 (v.toNat % 10)]

/-- The registers 0 to x, inclusive, in ascending order (48_block_transfer.md R171, R172). -/
def regsUpTo (x : Nibble) : List Nibble := allNibbles.take (x.val + 1)

/-- `MemWrite(base + k, 1, V[k])` for each listed register k, in order (48_block_transfer.md R171). -/
def State.storeV (s : State) (base : Nat) : List Nibble → State
  | [] => s
  | k :: ks => (s.writeByte (base + k.val) (s.getV k)).storeV base ks

/-- `V[k] <- MemRead(base + k, 1)` for each listed register k, in order (48_block_transfer.md R172). -/
def State.loadV (s : State) (base : Nat) : List Nibble → State
  | [] => s
  | k :: ks => (s.setV k (s.readByte (base + k.val))).loadV base ks

/-- I after a block transfer of V0 to Vx: unchanged under KEEP, I + x + 1 mod 65536 under ADVANCE
(48_block_transfer.md R173). -/
def blockTransferI (mode : BlockTransferIMode) (i : Word) (x : Nibble) : Word :=
  match mode with
  | .keep => i
  | .advance => i + BitVec.ofNat 16 (x.val + 1)

end Sys2Proof.Machine
end

