-- ==== Sys2Proof/Machine/BlockTransfer.lean ====
section
/-! DEFINITION. The meanings of the block transfers (48_block_transfer.md). -/

namespace Sys2Proof.Machine

/-- FX33, LD B, Vx (48_block_transfer.md R170): the three decimal digits to I, I + 1, I + 2; I unchanged. -/
def execLdBVx (x : Nibble) (s : State) : Host.Outcome State Fault Refusal :=
  .next (s.writeBytes s.I.toNat (decimalDigits (s.getV x)))

/-- FX55, LD [I], Vx (48_block_transfer.md R171): V0 to Vx to memory from I, then I by BLOCK_TRANSFER_I_MODE (R173). -/
def execStoreRegs (x : Nibble) (s : State) : Host.Outcome State Fault Refusal :=
  .next ((s.storeV s.I.toNat (regsUpTo x)).setI (blockTransferI s.cfg.blockTransferIMode s.I x))

/-- FX65, LD Vx, [I] (48_block_transfer.md R172): V0 to Vx from memory at I, then I by BLOCK_TRANSFER_I_MODE (R173). -/
def execLoadRegs (x : Nibble) (s : State) : Host.Outcome State Fault Refusal :=
  .next ((s.loadV s.I.toNat (regsUpTo x)).setI (blockTransferI s.cfg.blockTransferIMode s.I x))

end Sys2Proof.Machine
end

