-- ==== Sys2Proof/Machine/ControlFlow.lean ====
section
/-! DEFINITION. The meanings of the jumps, calls, returns and skips (40_control_flow.md). In every meaning `s` is the state
of the execute phase: pc already holds a0 + 2 (30_encoding.md R82). -/

namespace Sys2Proof.Machine

/-- 1NNN, JP nnn (40_control_flow.md R100): `pc <- zext_16(nnn)`. -/
def execJp (nnn : Addr12) (s : State) : Host.Outcome State Fault Refusal :=
  .next (s.setPc (zextAddr nnn))

/-- 2NNN, CALL nnn (40_control_flow.md R101): STACK_OVERFLOW when sp = STACK_DEPTH; otherwise the advanced pc is pushed and
`pc <- zext_16(nnn)`. -/
def execCall (nnn : Addr12) (s : State) : Host.Outcome State Fault Refusal :=
  if s.sp = s.cfg.stackDepth then .next (s.raiseFault .stackOverflow)
  else
    match s.push s.pc with
    | some t => .next (t.setPc (zextAddr nnn))
    | none => .fault .stackSlotAbsent

/-- 00EE, RET (40_control_flow.md R102): STACK_UNDERFLOW when sp = 0; otherwise `pc <- stack[sp]` after `sp <- sp - 1`. -/
def execRet (s : State) : Host.Outcome State Fault Refusal :=
  if s.sp = 0 then .next (s.raiseFault .stackUnderflow)
  else
    match s.pop with
    | some (target, t) => .next (t.setPc target)
    | none => .fault .stackSlotAbsent

/-- 3XNN, SE Vx, kk (40_control_flow.md R103). -/
def execSeImm (x : Nibble) (kk : Byte) (s : State) : Host.Outcome State Fault Refusal :=
  .next (s.skipIf (s.getV x == kk))

/-- 4XNN, SNE Vx, kk (40_control_flow.md R104). -/
def execSneImm (x : Nibble) (kk : Byte) (s : State) : Host.Outcome State Fault Refusal :=
  .next (s.skipIf (s.getV x != kk))

/-- 5XY0, SE Vx, Vy (40_control_flow.md R105). -/
def execSeReg (x y : Nibble) (s : State) : Host.Outcome State Fault Refusal :=
  .next (s.skipIf (s.getV x == s.getV y))

/-- 9XY0, SNE Vx, Vy (40_control_flow.md R106). -/
def execSneReg (x y : Nibble) (s : State) : Host.Outcome State Fault Refusal :=
  .next (s.skipIf (s.getV x != s.getV y))

/-- BNNN, JP V0, nnn (40_control_flow.md R107): the offset is always V0, and the sum is stored unmasked. -/
def execJpV0 (nnn : Addr12) (s : State) : Host.Outcome State Fault Refusal :=
  .next (s.setPc (zextAddr nnn + zextByte (s.getV 0)))

/-- 0NNN, SYS nnn (40_control_flow.md R108): nothing beyond the fetch; nnn is ignored. -/
def execSys (_nnn : Addr12) (s : State) : Host.Outcome State Fault Refusal :=
  .next s

end Sys2Proof.Machine
end

