-- ==== Sys2Proof/Machine/Display.lean ====
section
/-! DEFINITION. The meanings of the display instructions (45_display.md). -/

namespace Sys2Proof.Machine

/-- 00E0, CLS (45_display.md R140): every pixel false; VF unchanged. -/
def execCls (s : State) : Host.Outcome State Fault Refusal :=
  .next (s.setDisplay Display.clear)

/-- The sprite-draw XOR unit of DXYN (45_display.md R141): n rows from I at the origin (V[x], V[y]), both read before VF
is written; `hit` starts at 0. -/
def State.drawSprite (s : State) (x y n : Nibble) : Drawing :=
  s.drawRows (s.getV x).toNat (s.getV y).toNat (List.range n.val) ⟨s.display, false⟩

/-- DXYN, DRW Vx, Vy, n (45_display.md R141): the sprite is XORed into the display, and VF takes the collision, also when
n = 0. -/
def execDrw (x y n : Nibble) (s : State) : Host.Outcome State Fault Refusal :=
  .next ((s.setDisplay (s.drawSprite x y n).display).setV flagReg (collisionFlag (s.drawSprite x y n).hit))

end Sys2Proof.Machine
end

