-- ==== Sys2Proof/Machine/Immediate.lean ====
section
/-! DEFINITION. The meanings of the immediate load and add (41_immediate.md). -/

namespace Sys2Proof.Machine

/-- 6XNN, LD Vx, kk (41_immediate.md R110): `V[x] <- kk`. -/
def execLdImm (x : Nibble) (kk : Byte) (s : State) : Host.Outcome State Fault Refusal :=
  .next (s.setV x kk)

/-- 7XNN, ADD Vx, kk (41_immediate.md R111): `V[x] <- (V[x] + kk) mod 256`, with no flag. -/
def execAddImm (x : Nibble) (kk : Byte) (s : State) : Host.Outcome State Fault Refusal :=
  .next (s.setV x (s.getV x + kk))

end Sys2Proof.Machine
end

