-- ==== Sys2Proof/Machine/Index.lean ====
section
/-! DEFINITION. The meanings of the index register instructions (43_index.md). None writes VF. -/

namespace Sys2Proof.Machine

/-- ANNN, LD I, nnn (43_index.md R131): `I <- zext_16(nnn)`. -/
def execLdI (nnn : Addr12) (s : State) : Host.Outcome State Fault Refusal :=
  .next (s.setI (zextAddr nnn))

/-- FX1E, ADD I, Vx (43_index.md R132): `I <- (I + zext_16(V[x])) mod 65536`, unmasked. -/
def execAddIVx (x : Nibble) (s : State) : Host.Outcome State Fault Refusal :=
  .next (s.setI (s.I + zextByte (s.getV x)))

/-- FX29, LD F, Vx (43_index.md R133): I takes the address of the glyph of the low nibble. -/
def execLdFVx (x : Nibble) (s : State) : Host.Outcome State Fault Refusal :=
  .next (s.setI (glyphAddress (s.getV x)))

end Sys2Proof.Machine
end

