-- ==== Sys2Proof/Machine/Keypad.lean ====
section
/-! DEFINITION. The meanings of the key instructions (46_keypad.md). -/

namespace Sys2Proof.Machine

/-- The shared form of EX9E and EXA1 (46_keypad.md R150): the key index is selected, which enters KEY_INDEX_RANGE when it
fails, and otherwise the next instruction is skipped when the key's state is `down`. -/
def State.keySkip (s : State) (x : Nibble) (down : Bool) : State :=
  match s.keyIndex x with
  | some k => s.skipIf (s.keyDown k == down)
  | none => s.raiseFault .keyIndexRange

/-- EX9E, SKP Vx (46_keypad.md R151). -/
def execSkp (x : Nibble) (s : State) : Host.Outcome State Fault Refusal :=
  .next (s.keySkip x true)

/-- EXA1, SKNP Vx (46_keypad.md R152). -/
def execSknp (x : Nibble) (s : State) : Host.Outcome State Fault Refusal :=
  .next (s.keySkip x false)

/-- The state after FX0A (46_keypad.md R153): the lowest pressed key to V[x], or `pc <- a0` when no key is pressed. -/
def State.keyWait (s : State) (x : Nibble) : State :=
  match s.lowestKey with
  | some k => s.setV x (BitVec.ofNat 8 k.val)
  | none => s.setPc s.a0

/-- FX0A, LD Vx, K (46_keypad.md R153): a busy poll. -/
def execLdVxK (x : Nibble) (s : State) : Host.Outcome State Fault Refusal :=
  .next (s.keyWait x)

end Sys2Proof.Machine
end

