-- ==== Sys2Proof/Machine/Random.lean ====
section
/-! DEFINITION. The meaning of the random number instruction (44_random.md). -/

namespace Sys2Proof.Machine

/-- CXNN, RND Vx, kk (44_random.md R135): `V[x] <- rnd & kk`; the free byte is used up and the next one drawn (log 6). -/
def execRnd (x : Nibble) (kk : Byte) (s : State) : Host.Outcome State Fault Refusal :=
  .next (s.setV x (s.rnd &&& kk)).drawRnd

end Sys2Proof.Machine
end

