-- ==== Sys2Proof/Machine/Step.lean ====
section
/-! DEFINITION. One step: the `execute` transaction (30_encoding.md R82), with the random byte taken from the state
(log 6). -/

namespace Sys2Proof.Machine

/-- `execute` (30_encoding.md R82): nothing while the core is faulted (60_exceptions.md R204); otherwise fetch, advance pc,
decode, and either execute or, for an unknown opcode, do nothing more (R80). -/
def step (s : State) : Host.Outcome State Fault Refusal :=
  if s.fault = .none then
    match decode s.fetchWord with
    | .ok i => exec i s.advance
    | .error _ => .next s.advance
  else .next s

/-- The state with an instruction of opcode_table.json placed where the next step fetches: its two bytes at pc, high byte
first, and no fault pending, since a faulted core fetches nothing (60_exceptions.md R204; log 11). -/
def State.withFetchWord (s : State) (nbits w : Nat) : State :=
  (s.writeBytes s.pc.toNat [highByte (tableWord nbits w), lowByte (tableWord nbits w)]).setFault .none

end Sys2Proof.Machine
end

