-- ==== Sys2Proof/Machine/HostPort.lean ====
section
/-! DEFINITION. The eight host transactions of 10_state.md R34, each one atomic function of the state (R35). -/

namespace Sys2Proof.Machine

/-- The transactions (10_state.md R34). -/
inductive Transaction where
  | reset
  | loadProgram (bytes : List Byte)
  | execute (rnd : Byte)
  | setKey (k : Nat) (pressed : Bool)
  | tickTimers
  | getDisplay
  | getDisplayPixel (x y : Nat)
  | getFault
deriving DecidableEq, Repr

/-- A host call outside its precondition (92_eei_decisions.md D28). -/
inductive HostViolation where
  /-- set_key with k >= 16 (46_keypad.md R154). -/
  | keyIndex (k : Nat)
  /-- get_display_pixel with x >= 64 or y >= 32 (45_display.md R147). -/
  | pixelIndex (x y : Nat)
deriving DecidableEq, Repr

/-- The optional output event UNKNOWN_OPCODE(a0, w) (30_encoding.md R80). -/
structure UnknownOpcode where
  a0 : Word
  w : Word
deriving DecidableEq, Repr

/-- What a transaction answers the host. -/
inductive Response where
  /-- A transaction with no result. -/
  | done
  /-- load_program accepted: OK (70_reset_and_hazards.md R232). -/
  | loadOk
  /-- load_program turned away: REJECTED (70_reset_and_hazards.md R232). -/
  | loadRejected
  /-- execute, with the event it emits, if any (30_encoding.md R80). -/
  | executed (event : Option UnknownOpcode)
  /-- get_display (45_display.md R146). -/
  | display (pixels : List Bool)
  /-- get_display_pixel (45_display.md R147). -/
  | pixel (lit : Bool)
  /-- get_fault (60_exceptions.md R203). -/
  | faultStatus (f : FaultStatus)
  /-- A call outside its precondition: no effect and no result (45_display.md R147, 46_keypad.md R154; log 10). -/
  | violation (v : HostViolation)
deriving DecidableEq, Repr

/-- `reset()` (70_reset_and_hazards.md R231): every element of 10_state.md R33 at its reset value, at once. The parameters
stay, and the source of free random bytes goes on where it is (log 6). -/
def State.hostReset (s : State) : State := State.resetWith s.cfg s.rnd s.draws

/-- `load_program(bytes)` (70_reset_and_hazards.md R232). -/
def State.loadProgram (s : State) (bytes : List Byte) : State × Response :=
  if bytes.length > programMax then (s, .loadRejected)
  else (s.writeBytes programBase bytes, .loadOk)

/-- `tick_timers()` for one timer: a zero timer stays at zero (47_timers.md R164). -/
def tickTimer (t : Byte) : Byte := if t.toNat > 0 then t - 1 else t

/-- `tick_timers()` (47_timers.md R164), the same whether or not the core is faulted. -/
def State.tickTimers (s : State) : State := (s.setDT (tickTimer s.DT)).setST (tickTimer s.ST)

/-- `set_key(k, pressed)` (46_keypad.md R154). -/
def State.hostSetKey (s : State) (k : Nat) (pressed : Bool) : State × Response :=
  if k < 16 then (s.setKey (Fin.ofNat 16 k) pressed, .done) else (s, .violation (.keyIndex k))

/-- The 2048 pixels, element y * 64 + x (45_display.md R146). -/
def State.getDisplay (s : State) : List Bool := s.display.toList.flatMap Vector.toList

/-- `get_display_pixel(x, y)` (45_display.md R147). -/
def State.getDisplayPixel (s : State) (x y : Nat) : Response :=
  if x < 64 ∧ y < 32 then .pixel (s.pix (Fin.ofNat 64 x) (Fin.ofNat 32 y)) else .violation (.pixelIndex x y)

/-- Whether the word at pc is one for which UNKNOWN_OPCODE may be emitted: an unknown opcode (30_encoding.md R80) or SYS
(40_control_flow.md R108). -/
def mayEmitUnknown (w : Word) : Bool :=
  match decode w with
  | .ok (.sys _) => true
  | .ok _ => false
  | .error _ => true

/-- The event an `execute` of this state emits, if any: never while faulted, and only if the implementation chooses to
(30_encoding.md R80, log 8). -/
def State.executeEvent (s : State) : Option UnknownOpcode :=
  if s.fault = .none ∧ mayEmitUnknown s.fetchWord ∧ Config.emitsUnknownOpcode s.pc s.fetchWord then
    some ⟨s.pc, s.fetchWord⟩
  else none

/-- `execute(rnd)` (30_encoding.md R82) with the random byte the host gives: one step in which it is the byte CXNN takes.
The model's own source of free bytes is not used, so it stays as it was (log 6). -/
def State.executeWith (s : State) (rnd : Byte) : Host.Outcome (State × Response) Fault Refusal :=
  match step { s with rnd := rnd } with
  | .next t => .next ({ t with rnd := s.rnd, draws := s.draws }, .executed s.executeEvent)
  | .fault r => .fault r
  | .refused r => .refused r

/-- One transaction: the next state and the response (10_state.md R34, R35). -/
def transact (s : State) : Transaction → Host.Outcome (State × Response) Fault Refusal
  | .reset => .next (s.hostReset, .done)
  | .loadProgram bytes => .next (s.loadProgram bytes)
  | .execute rnd => s.executeWith rnd
  | .setKey k pressed => .next (s.hostSetKey k pressed)
  | .tickTimers => .next (s.tickTimers, .done)
  | .getDisplay => .next (s, .display s.getDisplay)
  | .getDisplayPixel x y => .next (s, s.getDisplayPixel x y)
  | .getFault => .next (s, .faultStatus s.fault)

/-- A serialised sequence of transactions, each seeing the state the previous one left (10_state.md R35): the final state
and the responses in order. -/
def transactAll (s : State) : List Transaction → Host.Outcome (State × List Response) Fault Refusal
  | [] => .next (s, [])
  | t :: ts =>
    match transact s t with
    | .next (s1, r) =>
      match transactAll s1 ts with
      | .next (s2, rs) => .next (s2, r :: rs)
      | .fault f => .fault f
      | .refused f => .refused f
    | .fault f => .fault f
    | .refused f => .refused f

end Sys2Proof.Machine
end

