-- ==== Sys2Proof/Safety.lean ====
section
/-! DEFINITION. What a legal state and a good end of a run are, and the words in which the statements speak of frames. -/

namespace Sys2Proof.Machine

/-! ### Legal states -/

/-- The invariant of the machine: legal parameters (00_scope.md R7), a stack array of STACK_DEPTH slots with sp in
0..STACK_DEPTH (10_state.md R24), canonical memory inside the 4096 bytes (R30), and a fault code only where
60_exceptions.md R201 allows it: overflow with a full stack, underflow with an empty one, KEY_INDEX_RANGE only under
KEY_INDEX_POLICY = FAULT (10_state.md R31). -/
structure State.Inv (s : State) : Prop where
  legal : s.cfg.Legal
  stackLength : s.stack.length = s.cfg.stackDepth
  spBound : s.sp ≤ s.cfg.stackDepth
  memWF : Memory.WF s.cfg.font s.mem
  overflowFull : s.fault = .stackOverflow → s.sp = s.cfg.stackDepth
  underflowEmpty : s.fault = .stackUnderflow → s.sp = 0
  keyRangePolicy : s.fault = .keyIndexRange → s.cfg.keyIndexPolicy = .fault

/-- A state that a claim of correct execution may end in: not faulted (60_exceptions.md R203). -/
abbrev State.Good (s : State) : Prop := s.fault = .none

/-! ### Words of the opcode map, nibble by nibble (00_scope.md R8) -/

/-- The word whose four nibbles are c, x, y, n, from most to least significant. -/
def nibblesWord (c x y n : Nat) : Word := BitVec.ofNat 16 (c * 4096 + x * 256 + y * 16 + n)

/-- The word whose nibbles are c and x and whose low byte is kk. -/
def byteWord (c x kk : Nat) : Word := BitVec.ofNat 16 (c * 4096 + x * 256 + kk)

/-- The word whose top nibble is c and whose low 12 bits are nnn. -/
def addrWord (c nnn : Nat) : Word := BitVec.ofNat 16 (c * 4096 + nnn)

/-- A run's good end at the bound address h: pc = h, the word at h is 1hhh, and no fault
(70_reset_and_hazards.md R234). -/
def State.EndOfRun (s : State) (h : Addr12) : Prop :=
  s.pc = zextAddr h ∧ s.readWord h.toNat = addrWord 1 h.toNat ∧ s.Good

/-! ### Frames -/

/-- The parts of the state, for saying which of them a step leaves alone. `random` is the model's own pair of fields. -/
inductive Part where
  | regs | index | pc | stack | sp | delay | sound | keys | display | memory | fault | params | random
deriving DecidableEq, Repr

/-- The part is the same in the two states. Memory is compared through the read of one byte, at every address. -/
def State.SamePart (s t : State) : Part → Prop
  | .regs => ∀ x, t.getV x = s.getV x
  | .index => t.I = s.I
  | .pc => t.pc = s.pc
  | .stack => t.stack = s.stack
  | .sp => t.sp = s.sp
  | .delay => t.DT = s.DT
  | .sound => t.ST = s.ST
  | .keys => ∀ k, t.keyDown k = s.keyDown k
  | .display => ∀ x y, t.pix x y = s.pix x y
  | .memory => ∀ a, t.readByte a = s.readByte a
  | .fault => t.fault = s.fault
  | .params => t.cfg = s.cfg
  | .random => t.rnd = s.rnd ∧ t.draws = s.draws

/-- Every part but the listed ones is the same. -/
def State.OnlyChanges (s t : State) (parts : List Part) : Prop := ∀ p, p ∉ parts → s.SamePart t p

/-- Every V register but the listed ones is the same. -/
def State.RegsSameExcept (s t : State) (xs : List Nibble) : Prop := ∀ x, x ∉ xs → t.getV x = s.getV x

/-! ### The sprite as a set of pixels -/

/-- Pixel (px, py) lies under a set bit of the n-row sprite at I drawn at (V[x], V[y]): some row r < n and column c < 8
whose bit 7 - c is set falls on it, both coordinates wrapping (45_display.md R141, R142). -/
def State.UnderSprite (s : State) (x y n : Nibble) (px : Fin 64) (py : Fin 32) : Prop :=
  ∃ r c : Nat, r < n.val ∧ c < 8 ∧ (s.readByte (s.I.toNat + r)).getLsbD (7 - c) = true ∧
    px.val = ((s.getV x).toNat + c) % 64 ∧ py.val = ((s.getV y).toNat + r) % 32

end Sys2Proof.Machine
end

