-- ==== Sys2Proof/Certificates/Slice0/Obligations.lean ====
section
/-! DEFINITION. The statements for the provers. In every statement about `exec`, the state `s` is the one of the execute
phase: its pc is a0 + 2 (30_encoding.md R82). Where a statement says which word an instruction is, the opcode map of
30_encoding.md R74 is used, which the spec itself takes from general knowledge (92_eei_decisions.md D11, log 9). -/

open Sys2Proof Sys2Proof.Machine

/-! ### Reset, step, decoding -/

/-- What `reset` gives from every state (70_reset_and_hazards.md, the reset rule, with the table of 10_state.md), that the
constructed machine is a state reset leaves as it is, and that resetting twice is resetting once. That reset clears the
fault, and that construction gives the same state, are the spec's own decisions (92_eei_decisions.md D30); that the
parameters stay is the model's (log 1). -/
def Obligations.ResetGivesTheResetValues : Prop :=
  (∀ s : State, ∃ t : State, transact s .reset = .next (t, .done) ∧
    (∀ x, t.getV x = 0) ∧ t.I = 0 ∧ t.pc = 0x200 ∧ t.stack = List.replicate s.cfg.stackDepth 0 ∧ t.sp = 0 ∧
    t.DT = 0 ∧ t.ST = 0 ∧ (∀ k, t.keyDown k = false) ∧ (∀ x y, t.pix x y = false) ∧
    (∀ (d : Fin 16) (r : Fin 5), t.readByte (5 * d.val + r.val) = (s.cfg.font[d])[r]) ∧
    (∀ a, 0x50 ≤ a → a ≤ 0xFFF → t.readByte a = 0) ∧ t.fault = .none ∧ t.cfg = s.cfg ∧
    transact t .reset = .next (t, .done)) ∧
  transact State.reset .reset = .next (State.reset, .done)

/-- The parameter values of the machine at reset are the defaults that 00_scope.md R7 shows: the model's choice of which
legal machine the reset state is (logs 2, 4, 5); the open mode is not named (log 3). The 80 bytes of the default FONT stand
row by row as 20_memory.md R54 lists them, from general knowledge (92_eei_decisions.md D25); byte 0x050 is past the table. -/
def Obligations.ResetParametersAreTheDefaults : Prop :=
  State.reset.cfg.stackDepth = 16 ∧ State.reset.cfg.Legal ∧ State.reset.cfg.keyIndexPolicy = .mask ∧
  (List.range 80).map State.reset.readByte =
      [0xF0, 0x90, 0x90, 0x90, 0xF0] ++ [0x20, 0x60, 0x20, 0x20, 0x70] ++ [0xF0, 0x10, 0xF0, 0x80, 0xF0] ++
      [0xF0, 0x10, 0xF0, 0x10, 0xF0] ++ [0x90, 0x90, 0xF0, 0x10, 0x10] ++ [0xF0, 0x80, 0xF0, 0x10, 0xF0] ++
      [0xF0, 0x80, 0xF0, 0x90, 0xF0] ++ [0xF0, 0x10, 0x20, 0x40, 0x40] ++ [0xF0, 0x90, 0xF0, 0x90, 0xF0] ++
      [0xF0, 0x90, 0xF0, 0x10, 0xF0] ++ [0xF0, 0x90, 0xF0, 0x90, 0x90] ++ [0xE0, 0x90, 0xE0, 0x90, 0xE0] ++
      [0xF0, 0x80, 0x80, 0x80, 0xF0] ++ [0xE0, 0x90, 0x90, 0x90, 0xE0] ++ [0xF0, 0x80, 0xF0, 0x80, 0xF0] ++
      [0xF0, 0x80, 0xF0, 0x80, 0x80] ∧
  State.reset.readByte 0x050 = 0

/-- The execute cycle of 30_encoding.md R82, in its three cases, for the word w that is the big-endian pair of bytes at pc,
each address masked: a faulted core does nothing; a word that decodes to i runs i with pc advanced by 2; any other word only
advances pc. The `execute` transaction is the same with the host's random byte. Only an unknown word and SYS may emit the
event UNKNOWN_OPCODE(a0, w), at most (40_control_flow.md R108); SYS and the event's form are the spec's own decisions
(92_eei_decisions.md D10, D29). That a step takes the state's byte, and that `execute` leaves the model's own source of
bytes alone, are the model's choice (log 6). -/
def Obligations.StepRunsTheDecodedInstruction : Prop :=
  ∀ (s : State) (w : Word), w = (s.readByte s.pc.toNat ++ s.readByte (s.pc.toNat + 1) : Word) →
    (s.fault ≠ .none → step s = .next s ∧ ∀ rnd, transact s (.execute rnd) = .next (s, .executed none)) ∧
    (∀ i, s.fault = .none → decode w = .ok i → step s = exec i { s with pc := s.pc + 2 } ∧
      ∀ rnd t, exec i { s with pc := s.pc + 2, rnd := rnd } = .next t →
        ∃ e, transact s (.execute rnd) = .next ({ t with rnd := s.rnd, draws := s.draws }, .executed e) ∧
          ((∀ nnn, i ≠ .sys nnn) → e = none) ∧ (∀ nnn, i = .sys nnn → e = none ∨ e = some ⟨s.pc, w⟩)) ∧
    (∀ e, s.fault = .none → decode w = .error e → step s = .next { s with pc := s.pc + 2 } ∧
      ∀ rnd, ∃ ev, transact s (.execute rnd) = .next ({ s with pc := s.pc + 2 }, .executed ev) ∧
        (ev = none ∨ ev = some ⟨s.pc, w⟩))

/-- A word that matches no row of the opcode map only advances pc, and at most emits the event UNKNOWN_OPCODE(a0, w)
(30_encoding.md, decode and the execute cycle). The event's form is the spec's own decision (92_eei_decisions.md D29);
whether it is emitted is left open (log 8). -/
def Obligations.UnknownOpcodeIsANoOp : Prop :=
  ∀ s : State, s.fault = .none → (∀ r ∈ opcodeRows, ¬ r.Selects s.fetchWord) →
    step s = .next { s with pc := s.pc + 2 } ∧
    (s.executeEvent = none ∨ s.executeEvent = some ⟨s.pc, s.fetchWord⟩)

/-- A faulted core's execute is the identity and emits nothing, and no transaction but reset changes the fault. The sticky
halt is the spec's own decision (92_eei_decisions.md D6, of 60_exceptions.md's fault entry). -/
def Obligations.FaultedCoreExecutesNothing : Prop :=
  ∀ s : State, s.fault ≠ .none →
    step s = .next s ∧ (∀ rnd, transact s (.execute rnd) = .next (s, .executed none)) ∧
    (∀ tr u r, tr ≠ .reset → transact s tr = .next (u, r) → u.fault = s.fault)

/-- Decoding the word of a well-formed instruction gives the instruction back, with every operand at every value. -/
def Obligations.DecodeOfEncodeIsTheInstruction : Prop :=
  ∀ i : Instr, i.WellFormed → decode (encode i) = .ok i

/-- A word that decodes is the word of the instruction it decodes to, and that instruction is well-formed: each word has
one meaning (30_encoding.md R75, R79). -/
def Obligations.DecodedWordIsTheEncoding : Prop :=
  ∀ (w : Word) (i : Instr), decode w = .ok i → i.WellFormed ∧ encode i = w

/-- 30_encoding.md R74 to R76: the decoder finds an instruction exactly for the words that some row of the opcode map
selects; the instruction's own row selects the word; and two rows select one word only in class 0, where 00E0 and 00EE
come before 0NNN. -/
def Obligations.DecoderFollowsTheOpcodeMap : Prop :=
  (∀ w : Word, (∃ i, decode w = .ok i) ↔ ∃ r ∈ opcodeRows, r.Selects w) ∧
  (∀ (w : Word) (i : Instr), decode w = .ok i → i.row ∈ opcodeRows ∧ i.row.Selects w) ∧
  (∀ (w : Word) (r q : OpcodeRow), r ∈ opcodeRows → q ∈ opcodeRows → r.Selects w → q.Selects w → r ≠ q →
    (w = 0x00E0 ∨ w = 0x00EE) ∧ (r = ⟨0x0000, 0xF000⟩ ∨ q = ⟨0x0000, 0xF000⟩)) ∧
  decode 0x00E0 = .ok .cls ∧ decode 0x00EE = .ok .ret

/-- The unknown words are exactly those that the table of 30_encoding.md, "reserved, illegal and hint encodings", lists by
class: the spec's own derivation from the opcode map and the decision to match strictly (92_eei_decisions.md D9). -/
def Obligations.UnknownWordsByClass : Prop :=
  ∀ w : Word, (∃ e, decode w = .error e) ↔
    (fieldC w = 0x5 ∧ fieldN w ≠ 0) ∨
    (fieldC w = 0x8 ∧ fieldN w ∈ ([0x8, 0x9, 0xA, 0xB, 0xC, 0xD, 0xF] : List Nibble)) ∨
    (fieldC w = 0x9 ∧ fieldN w ≠ 0) ∨
    (fieldC w = 0xE ∧ fieldKK w ∉ ([0x9E, 0xA1] : List Byte)) ∨
    (fieldC w = 0xF ∧ fieldKK w ∉ ([0x07, 0x0A, 0x15, 0x18, 0x1E, 0x29, 0x33, 0x55, 0x65] : List Byte))

/-- Words written out from the encodings of 30_encoding.md R73, R74, one for each format. -/
def Obligations.SampleWordsDecode : Prop :=
  decode 0b0000000011100000 = .ok .cls ∧ decode 0b0000000100100011 = .ok (.sys 0x123) ∧
  decode 0b0001001000110100 = .ok (.jp 0x234) ∧ decode 0b0110101000101011 = .ok (.ldImm 0xA 0x2B) ∧
  decode 0b1000000100100110 = .ok (.shrReg 1 2) ∧ decode 0b1101000100100101 = .ok (.drw 1 2 5) ∧
  decode 0b1110010010011110 = .ok (.skp 4) ∧ decode 0b1111001001100101 = .ok (.loadRegs 2) ∧
  decode 0b0101000100100001 = .error (.unknownClass5 0x5121)

/-! ### Control flow -/

/-- 40_control_flow.md R100. -/
def Obligations.JumpSetsPc : Prop :=
  ∀ (s : State) (nnn : Addr12), decode (addrWord 0x1 nnn.toNat) = .ok (.jp nnn) ∧
    ∃ t, exec (.jp nnn) s = .next t ∧ t.pc.toNat = nnn.toNat ∧ s.OnlyChanges t [.pc]

/-- BNNN: the offset is V0 for every nnn (40_control_flow.md, JP V0). That a sum above 0xFFF is stored unmasked is the
spec's own decision (92_eei_decisions.md D7). -/
def Obligations.JumpWithOffsetAddsV0 : Prop :=
  ∀ (s : State) (nnn : Addr12), decode (addrWord 0xB nnn.toNat) = .ok (.jpV0 nnn) ∧
    ∃ t, exec (.jpV0 nnn) s = .next t ∧ t.pc.toNat = nnn.toNat + (s.getV 0).toNat ∧ s.OnlyChanges t [.pc]

/-- CALL pushes the advanced pc and jumps; with a full stack it enters STACK_OVERFLOW with pc back at its own address and
nothing else changed (40_control_flow.md, CALL). The count of slots and the fault entry are the spec's own decisions
(92_eei_decisions.md D4, D5). -/
def Obligations.CallPushesOrOverflows : Prop :=
  ∀ (s : State) (nnn : Addr12), decode (addrWord 0x2 nnn.toNat) = .ok (.call nnn) ∧
    (s.stack.length = s.cfg.stackDepth → s.sp < s.cfg.stackDepth →
      ∃ t, exec (.call nnn) s = .next t ∧ t.stack[s.sp]? = some s.pc ∧ t.stack.length = s.stack.length ∧
        (∀ j, j ≠ s.sp → t.stack[j]? = s.stack[j]?) ∧ t.sp = s.sp + 1 ∧ t.pc.toNat = nnn.toNat ∧
        s.OnlyChanges t [.stack, .sp, .pc]) ∧
    (s.sp = s.cfg.stackDepth →
      ∃ t, exec (.call nnn) s = .next t ∧ t.fault = .stackOverflow ∧ t.pc = s.pc - 2 ∧
        s.OnlyChanges t [.fault, .pc])

/-- RET pops pc, and the slot keeps its value; with an empty stack it enters STACK_UNDERFLOW with pc back at its own address
and nothing else changed (40_control_flow.md, RET). The slot's value and the fault entry are the spec's own decisions
(92_eei_decisions.md D4, D5). -/
def Obligations.ReturnPopsOrUnderflows : Prop :=
  decode 0x00EE = .ok .ret ∧
  ∀ s : State,
    (s.stack.length = s.cfg.stackDepth → 0 < s.sp → s.sp ≤ s.cfg.stackDepth →
      ∃ t, exec .ret s = .next t ∧ s.stack[s.sp - 1]? = some t.pc ∧ t.sp = s.sp - 1 ∧
        s.OnlyChanges t [.sp, .pc]) ∧
    (s.sp = 0 →
      ∃ t, exec .ret s = .next t ∧ t.fault = .stackUnderflow ∧ t.pc = s.pc - 2 ∧ s.OnlyChanges t [.fault, .pc])

/-- 40_control_flow.md R103, R104: the skips against an immediate. -/
def Obligations.SkipsOnImmediate : Prop :=
  ∀ (s : State) (x : Nibble) (kk : Byte),
    decode (byteWord 0x3 x.val kk.toNat) = .ok (.seImm x kk) ∧
    decode (byteWord 0x4 x.val kk.toNat) = .ok (.sneImm x kk) ∧
    (∃ t, exec (.seImm x kk) s = .next t ∧ t.pc = (if s.getV x = kk then s.pc + 2 else s.pc) ∧
      s.OnlyChanges t [.pc]) ∧
    (∃ t, exec (.sneImm x kk) s = .next t ∧ t.pc = (if s.getV x ≠ kk then s.pc + 2 else s.pc) ∧
      s.OnlyChanges t [.pc])

/-- 40_control_flow.md R105, R106: the skips against a register. The words of classes 5 and 9 with another low nibble are
in UnknownWordsByClass. -/
def Obligations.SkipsOnRegister : Prop :=
  ∀ (s : State) (x y : Nibble),
    decode (nibblesWord 0x5 x.val y.val 0) = .ok (.seReg x y) ∧
    decode (nibblesWord 0x9 x.val y.val 0) = .ok (.sneReg x y) ∧
    (∃ t, exec (.seReg x y) s = .next t ∧ t.pc = (if s.getV x = s.getV y then s.pc + 2 else s.pc) ∧
      s.OnlyChanges t [.pc]) ∧
    (∃ t, exec (.sneReg x y) s = .next t ∧ t.pc = (if s.getV x ≠ s.getV y then s.pc + 2 else s.pc) ∧
      s.OnlyChanges t [.pc])

/-- SYS is a no-op for every address, the fetch's advance apart. The spec takes the form from general knowledge and decides
its effect (40_control_flow.md, SYS nnn; 92_eei_decisions.md D10). -/
def Obligations.SysIsANoOp : Prop :=
  ∀ (s : State) (nnn : Addr12),
    (nnn ≠ 0x0E0 → nnn ≠ 0x0EE → decode (addrWord 0x0 nnn.toNat) = .ok (.sys nnn)) ∧
    exec (.sys nnn) s = .next s

/-! ### Immediate and register arithmetic -/

/-- 41_immediate.md R110. -/
def Obligations.LoadImmediate : Prop :=
  ∀ (s : State) (x : Nibble) (kk : Byte), decode (byteWord 0x6 x.val kk.toNat) = .ok (.ldImm x kk) ∧
    ∃ t, exec (.ldImm x kk) s = .next t ∧ t.getV x = kk ∧ s.RegsSameExcept t [x] ∧ s.OnlyChanges t [.regs]

/-- 41_immediate.md R111: the sum wraps, and VF changes only as the destination. -/
def Obligations.AddImmediateWrapsWithoutFlag : Prop :=
  ∀ (s : State) (x : Nibble) (kk : Byte), decode (byteWord 0x7 x.val kk.toNat) = .ok (.addImm x kk) ∧
    ∃ t, exec (.addImm x kk) s = .next t ∧ (t.getV x).toNat = ((s.getV x).toNat + kk.toNat) % 256 ∧
      s.RegsSameExcept t [x] ∧ s.OnlyChanges t [.regs]

/-- 42_alu.md R121: assignment. -/
def Obligations.AssignCopiesVy : Prop :=
  ∀ (s : State) (x y : Nibble), decode (nibblesWord 0x8 x.val y.val 0x0) = .ok (.ldReg x y) ∧
    ∃ t, exec (.ldReg x y) s = .next t ∧ t.getV x = s.getV y ∧ s.RegsSameExcept t [x] ∧ s.OnlyChanges t [.regs]

/-- OR, AND and XOR, bit by bit; VF changes only as the destination, which is the spec's own decision
(92_eei_decisions.md D13). -/
def Obligations.LogicOperationsLeaveVF : Prop :=
  ∀ (s : State) (x y : Nibble),
    decode (nibblesWord 0x8 x.val y.val 0x1) = .ok (.orReg x y) ∧
    decode (nibblesWord 0x8 x.val y.val 0x2) = .ok (.andReg x y) ∧
    decode (nibblesWord 0x8 x.val y.val 0x3) = .ok (.xorReg x y) ∧
    (∃ t, exec (.orReg x y) s = .next t ∧
      (∀ j : Fin 8, (t.getV x)[j] = ((s.getV x)[j] || (s.getV y)[j])) ∧
      s.RegsSameExcept t [x] ∧ s.OnlyChanges t [.regs]) ∧
    (∃ t, exec (.andReg x y) s = .next t ∧
      (∀ j : Fin 8, (t.getV x)[j] = ((s.getV x)[j] && (s.getV y)[j])) ∧
      s.RegsSameExcept t [x] ∧ s.OnlyChanges t [.regs]) ∧
    (∃ t, exec (.xorReg x y) s = .next t ∧
      (∀ j : Fin 8, (t.getV x)[j] = ((s.getV x)[j] ^^ (s.getV y)[j])) ∧
      s.RegsSameExcept t [x] ∧ s.OnlyChanges t [.regs])

/-- 42_alu.md R125: the sum mod 256 in V[x], then the carry in VF, which stays when x = F
(the order of the two writes is also 92_eei_decisions.md D12). -/
def Obligations.AddSetsCarry : Prop :=
  ∀ (s : State) (x y : Nibble), decode (nibblesWord 0x8 x.val y.val 0x4) = .ok (.addReg x y) ∧
    ∃ t, exec (.addReg x y) s = .next t ∧
      (x ≠ 0xF → (t.getV x).toNat = ((s.getV x).toNat + (s.getV y).toNat) % 256) ∧
      t.getV 0xF = (if (s.getV x).toNat + (s.getV y).toNat > 255 then 1 else 0) ∧
      s.RegsSameExcept t [x, 0xF] ∧ s.OnlyChanges t [.regs]

/-- 42_alu.md R126: the wrapped difference in V[x], then NOT borrow in VF, which stays when x = F
(the order of the two writes is also 92_eei_decisions.md D12). -/
def Obligations.SubtractSetsNotBorrow : Prop :=
  ∀ (s : State) (x y : Nibble), decode (nibblesWord 0x8 x.val y.val 0x5) = .ok (.subReg x y) ∧
    ∃ t, exec (.subReg x y) s = .next t ∧
      (x ≠ 0xF → ((t.getV x).toNat : Int) = ((s.getV x).toNat - (s.getV y).toNat : Int) % 256) ∧
      t.getV 0xF = (if (s.getV x).toNat ≥ (s.getV y).toNat then 1 else 0) ∧
      s.RegsSameExcept t [x, 0xF] ∧ s.OnlyChanges t [.regs]

/-- The reverse subtraction with NOT borrow in VF. The flag is the spec's own decision (42_alu.md, SUBN;
92_eei_decisions.md D14). -/
def Obligations.ReverseSubtractSetsNotBorrow : Prop :=
  ∀ (s : State) (x y : Nibble), decode (nibblesWord 0x8 x.val y.val 0x7) = .ok (.subnReg x y) ∧
    ∃ t, exec (.subnReg x y) s = .next t ∧
      (x ≠ 0xF → ((t.getV x).toNat : Int) = ((s.getV y).toNat - (s.getV x).toNat : Int) % 256) ∧
      t.getV 0xF = (if (s.getV y).toNat ≥ (s.getV x).toNat then 1 else 0) ∧
      s.RegsSameExcept t [x, 0xF] ∧ s.OnlyChanges t [.regs]

/-- 42_alu.md R127, R129: both shifts read Vy and write Vx, then the bit shifted out to VF, which stays when x = F
(the order of the two writes is also 92_eei_decisions.md D12). -/
def Obligations.ShiftsReadVyAndSetVF : Prop :=
  ∀ (s : State) (x y : Nibble),
    decode (nibblesWord 0x8 x.val y.val 0x6) = .ok (.shrReg x y) ∧
    decode (nibblesWord 0x8 x.val y.val 0xE) = .ok (.shlReg x y) ∧
    (∃ t, exec (.shrReg x y) s = .next t ∧
      (x ≠ 0xF → (t.getV x).toNat = (s.getV y).toNat / 2) ∧ (t.getV 0xF).toNat = (s.getV y).toNat % 2 ∧
      s.RegsSameExcept t [x, 0xF] ∧ s.OnlyChanges t [.regs]) ∧
    (∃ t, exec (.shlReg x y) s = .next t ∧
      (x ≠ 0xF → (t.getV x).toNat = (s.getV y).toNat * 2 % 256) ∧ (t.getV 0xF).toNat = (s.getV y).toNat / 128 ∧
      s.RegsSameExcept t [x, 0xF] ∧ s.OnlyChanges t [.regs])

/-! ### Index register and random byte -/

/-- 43_index.md R131, R133. -/
def Obligations.IndexLoads : Prop :=
  ∀ (s : State) (nnn : Addr12) (x : Nibble),
    decode (addrWord 0xA nnn.toNat) = .ok (.ldI nnn) ∧ decode (byteWord 0xF x.val 0x29) = .ok (.ldFVx x) ∧
    (∃ t, exec (.ldI nnn) s = .next t ∧ t.I.toNat = nnn.toNat ∧ s.OnlyChanges t [.index]) ∧
    (∃ t, exec (.ldFVx x) s = .next t ∧ t.I.toNat = 5 * ((s.getV x).toNat % 16) ∧ s.OnlyChanges t [.index])

/-- ADD I, Vx sums at 16 bits, unmasked, and leaves VF: the last is the spec's own decision (43_index.md, ADD I;
92_eei_decisions.md D15). -/
def Obligations.AddToIndexWrapsAt16Bits : Prop :=
  ∀ (s : State) (x : Nibble), decode (byteWord 0xF x.val 0x1E) = .ok (.addIVx x) ∧
    ∃ t, exec (.addIVx x) s = .next t ∧ t.I.toNat = (s.I.toNat + (s.getV x).toNat) % 65536 ∧
      s.OnlyChanges t [.index]

/-- CXNN masks the random byte, for every byte (44_random.md, RND; the free draw is the spec's own decision,
92_eei_decisions.md D22). That a step takes the byte from the state and then draws the next, and that `execute(rnd)` takes
the host's byte and leaves the model's own source as it was, are the model's choice (log 6). -/
def Obligations.RandomByteIsMasked : Prop :=
  ∀ (s : State) (x : Nibble) (kk : Byte), decode (byteWord 0xC x.val kk.toNat) = .ok (.rnd x kk) ∧
    (∃ t, exec (.rnd x kk) s = .next t ∧ t.getV x = s.rnd &&& kk ∧ s.RegsSameExcept t [x] ∧
      s.OnlyChanges t [.regs, .random]) ∧
    (s.fault = .none → decode s.fetchWord = .ok (.rnd x kk) →
      ∀ rnd : Byte, ∃ u r, transact s (.execute rnd) = .next (u, r) ∧ u.getV x = rnd &&& kk ∧ u.pc = s.pc + 2 ∧
        s.RegsSameExcept u [x] ∧ s.OnlyChanges u [.regs, .pc])

/-- Only CXNN depends on the random byte: any other instruction gives the same state and response for every two
(90_conflicts.md C6: every instruction is a pure function of fields, state and rnd). -/
def Obligations.OnlyRandomSeesTheRandomByte : Prop :=
  ∀ (s : State) (r₁ r₂ : Byte), (∀ x kk, decode s.fetchWord ≠ .ok (.rnd x kk)) →
    transact s (.execute r₁) = transact s (.execute r₂)

/-! ### Display -/

/-- 45_display.md R140. -/
def Obligations.ClearTurnsEveryPixelOff : Prop :=
  decode 0x00E0 = .ok .cls ∧
  ∀ s : State, ∃ t, exec .cls s = .next t ∧ (∀ x y, t.pix x y = false) ∧ s.OnlyChanges t [.display]

/-- DXYN (45_display.md): a pixel under a set bit of the sprite is flipped and every other pixel stays; VF is 1 exactly when
a pixel under a set bit was lit, and 0 otherwise, also for n = 0, where no pixel is under the sprite. That bit 7 is the
leftmost column and that n = 0 still writes VF are the spec's own decisions (92_eei_decisions.md D16, D17). -/
def Obligations.DrawXorsTheSprite : Prop :=
  ∀ (s : State) (x y n : Nibble), decode (nibblesWord 0xD x.val y.val n.val) = .ok (.drw x y n) ∧
    ∃ t, exec (.drw x y n) s = .next t ∧
      (∀ px py, s.UnderSprite x y n px py → t.pix px py = !s.pix px py) ∧
      (∀ px py, ¬ s.UnderSprite x y n px py → t.pix px py = s.pix px py) ∧
      ((∃ px py, s.UnderSprite x y n px py ∧ s.pix px py = true) → t.getV 0xF = 1) ∧
      ((¬ ∃ px py, s.UnderSprite x y n px py ∧ s.pix px py = true) → t.getV 0xF = 0) ∧
      s.RegsSameExcept t [0xF] ∧ s.OnlyChanges t [.regs, .display]

/-- Drawing the same sprite again from the same origin restores every pixel, and reports a collision exactly when the first
draw lit a pixel: the spec's own inference from the draw rule (45_display.md, "Drawing a sprite twice is an identity"). The
second draw's state u is any state whose I, origin registers and n bytes of memory from I are those of the first and whose
display is the one the first draw left. -/
def Obligations.DrawingTwiceRestoresTheDisplay : Prop :=
  ∀ (s t u v : State) (x y n : Nibble), exec (.drw x y n) s = .next t → exec (.drw x y n) u = .next v →
    u.I = s.I → (∀ r < n.val, u.readByte (s.I.toNat + r) = s.readByte (s.I.toNat + r)) → u.getV x = s.getV x → u.getV y = s.getV y →
    (∀ px py, u.pix px py = t.pix px py) →
    (∀ px py, v.pix px py = s.pix px py) ∧
    (v.getV 0xF = 1 ↔ ∃ px py, s.UnderSprite x y n px py ∧ s.pix px py = false)

/-- get_display and the pixel read (45_display.md): the 2048 pixels in row-major order, one pixel inside the bounds, and a refused
call, without result, outside them (the refusal is the spec's own decision, 92_eei_decisions.md D28, log 10); no state
changes. -/
def Obligations.HostReadsTheDisplay : Prop :=
  ∀ s : State,
    (∃ px, transact s .getDisplay = .next (s, .display px) ∧ px.length = 2048 ∧
      ∀ (x : Fin 64) (y : Fin 32), px[y.val * 64 + x.val]? = some (s.pix x y)) ∧
    (∀ (x : Fin 64) (y : Fin 32), transact s (.getDisplayPixel x.val y.val) = .next (s, .pixel (s.pix x y))) ∧
    (∀ x y : Nat, ¬ (x < 64 ∧ y < 32) →
      transact s (.getDisplayPixel x y) = .next (s, .violation (.pixelIndex x y)))

/-! ### Keypad -/

/-- The key skips for an index within range or under KEY_INDEX_POLICY = MASK: the key is the low nibble of V[x]. The policy
is the spec's own decision (46_keypad.md, key-index selection; 92_eei_decisions.md D18). -/
def Obligations.KeySkipsTestTheKey : Prop :=
  ∀ (s : State) (x : Nibble),
    decode (byteWord 0xE x.val 0x9E) = .ok (.skp x) ∧ decode (byteWord 0xE x.val 0xA1) = .ok (.sknp x) ∧
    ∀ k : Nibble, k.val = (s.getV x).toNat % 16 →
      (s.cfg.keyIndexPolicy = .mask ∨ (s.getV x).toNat ≤ 0x0F) →
      (∃ t, exec (.skp x) s = .next t ∧ t.pc = (if s.keyDown k = true then s.pc + 2 else s.pc) ∧
        s.OnlyChanges t [.pc]) ∧
      (∃ t, exec (.sknp x) s = .next t ∧ t.pc = (if s.keyDown k = false then s.pc + 2 else s.pc) ∧
        s.OnlyChanges t [.pc])

/-- Under KEY_INDEX_POLICY = FAULT a key index above 15 enters KEY_INDEX_RANGE with pc at the instruction and nothing else
changed (46_keypad.md, key-index selection; 92_eei_decisions.md D18). -/
def Obligations.KeyIndexAbove15FaultsUnderFaultPolicy : Prop :=
  ∀ (s : State) (x : Nibble), s.cfg.keyIndexPolicy = .fault → (s.getV x).toNat > 0x0F →
    (∃ t, exec (.skp x) s = .next t ∧ t.fault = .keyIndexRange ∧ t.pc = s.pc - 2 ∧ s.OnlyChanges t [.fault, .pc]) ∧
    (∃ t, exec (.sknp x) s = .next t ∧ t.fault = .keyIndexRange ∧ t.pc = s.pc - 2 ∧ s.OnlyChanges t [.fault, .pc])

/-- FX0A with a key pressed takes the lowest-numbered one at once and goes on; which of several is taken is the spec's own
decision (46_keypad.md, LD Vx, K; 92_eei_decisions.md D19). -/
def Obligations.KeyWaitTakesTheLowestKey : Prop :=
  ∀ (s : State) (x k : Nibble), decode (byteWord 0xF x.val 0x0A) = .ok (.ldVxK x) ∧
    (s.keyDown k = true → (∀ j : Nibble, s.keyDown j = true → k ≤ j) →
      ∃ t, exec (.ldVxK x) s = .next t ∧ (t.getV x).toNat = k.val ∧ s.RegsSameExcept t [x] ∧
        s.OnlyChanges t [.regs])

/-- FX0A with no key pressed is a fixed point of the step: "nothing changes at all, and pc ends where it began"
(46_keypad.md R153 corner case (a), 95_test_vectors.md PR-4). -/
def Obligations.KeyWaitWithoutAKeyChangesNothing : Prop :=
  ∀ (s : State) (x : Nibble), s.fault = .none → decode s.fetchWord = .ok (.ldVxK x) →
    (∀ k : Nibble, s.keyDown k = false) → step s = .next s

/-! ### Timers -/

/-- 47_timers.md R160, R161, R162. -/
def Obligations.TimerReadsAndWrites : Prop :=
  ∀ (s : State) (x : Nibble),
    decode (byteWord 0xF x.val 0x07) = .ok (.ldVxDt x) ∧ decode (byteWord 0xF x.val 0x15) = .ok (.ldDtVx x) ∧
    decode (byteWord 0xF x.val 0x18) = .ok (.ldStVx x) ∧
    (∃ t, exec (.ldVxDt x) s = .next t ∧ t.getV x = s.DT ∧ s.RegsSameExcept t [x] ∧ s.OnlyChanges t [.regs]) ∧
    (∃ t, exec (.ldDtVx x) s = .next t ∧ t.DT = s.getV x ∧ s.OnlyChanges t [.delay]) ∧
    (∃ t, exec (.ldStVx x) s = .next t ∧ t.ST = s.getV x ∧ s.OnlyChanges t [.sound])

/-! ### Memory and block transfer -/

/-- Every address is masked to 12 bits, a write is seen by the next read of the same masked address and by no other, and a
word is big-endian (20_memory.md, address logic). That the mask is taken after the unbounded sum is the spec's own decision
(92_eei_decisions.md D8). -/
def Obligations.ReadAfterWriteAtMaskedAddresses : Prop :=
  (∀ (s : State) (a b : Nat) (v : Byte),
    (s.writeByte a v).readByte b = (if b % 4096 = a % 4096 then v else s.readByte b)) ∧
  (∀ (s : State) (a : Nat), s.readByte a = s.readByte (a % 4096)) ∧
  (∀ (s : State) (a : Nat), (s.readWord a).toNat = (s.readByte a).toNat * 256 + (s.readByte (a + 1)).toNat)

/-- The fetch sees every written byte at once, also one at its second address across 0xFFF (20_memory.md, "Instruction fetch
is coherent with data writes", the spec's own decision 92_eei_decisions.md D32 and D8). -/
def Obligations.FetchSeesEveryWrite : Prop :=
  ∀ (s : State) (a : Nat) (v : Byte),
    (a % 4096 = s.pc.toNat % 4096 →
      (s.writeByte a v).fetchWord = (v ++ s.readByte (s.pc.toNat + 1) : Word)) ∧
    (a % 4096 = (s.pc.toNat + 1) % 4096 →
      (s.writeByte a v).fetchWord = (s.readByte s.pc.toNat ++ v : Word)) ∧
    (a % 4096 ≠ s.pc.toNat % 4096 → a % 4096 ≠ (s.pc.toNat + 1) % 4096 → (s.writeByte a v).fetchWord = s.fetchWord)

/-- The decimal digits go to the three bytes at I, masked, and every other byte stays; I stays too, which is the spec's own
decision (48_block_transfer.md, LD B; 92_eei_decisions.md D24). -/
def Obligations.DecimalStoreWritesThreeDigits : Prop :=
  ∀ (s : State) (x : Nibble), decode (byteWord 0xF x.val 0x33) = .ok (.ldBVx x) ∧
    ∃ t, exec (.ldBVx x) s = .next t ∧
      (t.readByte s.I.toNat).toNat = (s.getV x).toNat / 100 ∧
      (t.readByte (s.I.toNat + 1)).toNat = (s.getV x).toNat / 10 % 10 ∧
      (t.readByte (s.I.toNat + 2)).toNat = (s.getV x).toNat % 10 ∧
      (∀ a, (∀ k, k < 3 → a % 4096 ≠ (s.I.toNat + k) % 4096) → t.readByte a = s.readByte a) ∧
      s.OnlyChanges t [.memory]

/-- 48_block_transfer.md R171: V0 to Vx go to memory from I, masked, every other byte stays, and I follows
BLOCK_TRANSFER_I_MODE, for both of its values. -/
def Obligations.RegisterDumpStoresV0ToVx : Prop :=
  ∀ (s : State) (x : Nibble), decode (byteWord 0xF x.val 0x55) = .ok (.storeRegs x) ∧
    ∃ t, exec (.storeRegs x) s = .next t ∧
      (∀ k : Nibble, k ≤ x → t.readByte (s.I.toNat + k.val) = s.getV k) ∧
      (∀ a, (∀ k : Nibble, k ≤ x → a % 4096 ≠ (s.I.toNat + k.val) % 4096) → t.readByte a = s.readByte a) ∧
      (s.cfg.blockTransferIMode = .keep → t.I = s.I) ∧
      (s.cfg.blockTransferIMode = .advance → t.I.toNat = (s.I.toNat + x.val + 1) % 65536) ∧
      s.OnlyChanges t [.memory, .index]

/-- 48_block_transfer.md R172: V0 to Vx come from memory at I, masked, the other registers and all of memory
stay, and I follows BLOCK_TRANSFER_I_MODE, for both of its values. -/
def Obligations.RegisterLoadFillsV0ToVx : Prop :=
  ∀ (s : State) (x : Nibble), decode (byteWord 0xF x.val 0x65) = .ok (.loadRegs x) ∧
    ∃ t, exec (.loadRegs x) s = .next t ∧
      (∀ k : Nibble, k ≤ x → t.getV k = s.readByte (s.I.toNat + k.val)) ∧
      (∀ k : Nibble, x < k → t.getV k = s.getV k) ∧
      (s.cfg.blockTransferIMode = .keep → t.I = s.I) ∧
      (s.cfg.blockTransferIMode = .advance → t.I.toNat = (s.I.toNat + x.val + 1) % 65536) ∧
      s.OnlyChanges t [.regs, .index]

/-! ### The whole machine -/

/-- The source's rule "Program counter advances by exactly 2 bytes per non-skip instruction": an instruction that does not
jump, call, return, skip or wait ends with pc = a0 + 2 (30_encoding.md, the execute cycle; 95_test_vectors.md PR-2). -/
def Obligations.OtherInstructionsAdvancePcByTwo : Prop :=
  ∀ (s t : State) (i : Instr), s.fault = .none → decode s.fetchWord = .ok i → step s = .next t →
    (∀ nnn, i ≠ .jp nnn ∧ i ≠ .call nnn ∧ i ≠ .jpV0 nnn) → i ≠ .ret → (∀ x kk, i ≠ .seImm x kk ∧ i ≠ .sneImm x kk) →
    (∀ x y, i ≠ .seReg x y ∧ i ≠ .sneReg x y) → (∀ x, i ≠ .skp x ∧ i ≠ .sknp x ∧ i ≠ .ldVxK x) →
    t.pc.toNat = (s.pc.toNat + 2) % 65536

/-- A fault is precise: a step that ends faulted, from an unfaulted state, differs from its start only in `fault`; and the
code says which instruction it was and why (the codes and the precise entry are the spec's own decision, 92_eei_decisions.md
D5 and D18). -/
def Obligations.FaultEntryIsPrecise : Prop :=
  ∀ s t : State, s.fault = .none → step s = .next t → t.fault ≠ .none →
    t = { s with fault := t.fault } ∧
    ((t.fault = .stackOverflow ∧ s.sp = s.cfg.stackDepth ∧ ∃ nnn, decode s.fetchWord = .ok (.call nnn)) ∨
     (t.fault = .stackUnderflow ∧ s.sp = 0 ∧ decode s.fetchWord = .ok .ret) ∨
     (t.fault = .keyIndexRange ∧ s.cfg.keyIndexPolicy = .fault ∧
       ∃ x, (s.getV x).toNat > 0x0F ∧ (decode s.fetchWord = .ok (.skp x) ∨ decode s.fetchWord = .ok (.sknp x))))

/-- Only 00E0, DXYN and reset write the display, and only inside `execute` or `reset` (45_display.md, display-buffer write
arbiter: its clause on writers). -/
def Obligations.OnlyDrawingWritesTheDisplay : Prop :=
  ∀ (s u : State) (tr : Transaction) (r : Response), transact s tr = .next (u, r) → u.display ≠ s.display →
    tr = .reset ∨ ((∃ b, tr = .execute b) ∧
      (decode s.fetchWord = .ok .cls ∨ ∃ x y n, decode s.fetchWord = .ok (.drw x y n)))

/-- No instruction writes the keypad; only the host's set_key and reset do (46_keypad.md, keypad input port). That a set_key
with a key number of 16 or more changes nothing is the spec's own decision (92_eei_decisions.md D28, log 10); what set_key
writes is in SetKeySetsOneKey. -/
def Obligations.OnlyTheHostWritesTheKeypad : Prop :=
  (∀ s t : State, step s = .next t → t.keys = s.keys) ∧
  (∀ (s u : State) (tr : Transaction) (r : Response), transact s tr = .next (u, r) → u.keys ≠ s.keys →
    tr = .reset ∨ ∃ k pressed, tr = .setKey k pressed ∧ k < 16)

/-- The timers are written only by FX15 and FX18, by reset and by tick_timers (47_timers.md, timer interface: its clause on
writers). The port tick_timers is the spec's own decision (92_eei_decisions.md D20). -/
def Obligations.OnlyTimerInstructionsAndTheHostWriteTimers : Prop :=
  ∀ (s u : State) (tr : Transaction) (r : Response), transact s tr = .next (u, r) →
    (u.DT ≠ s.DT → tr = .reset ∨ tr = .tickTimers ∨
      ((∃ b, tr = .execute b) ∧ ∃ x, decode s.fetchWord = .ok (.ldDtVx x))) ∧
    (u.ST ≠ s.ST → tr = .reset ∨ tr = .tickTimers ∨
      ((∃ b, tr = .execute b) ∧ ∃ x, decode s.fetchWord = .ok (.ldStVx x)))

/-- Of the instructions only 2NNN and 00EE write sp, and only 2NNN a slot (10_state.md, call stack: its clause on writers;
that 00EE leaves every slot is the spec's own decision, 92_eei_decisions.md D4). -/
def Obligations.OnlyCallAndReturnWriteTheStack : Prop :=
  ∀ s t : State, step s = .next t →
    (t.stack ≠ s.stack → ∃ nnn, decode s.fetchWord = .ok (.call nnn)) ∧
    (t.sp ≠ s.sp → (∃ nnn, decode s.fetchWord = .ok (.call nnn)) ∨ decode s.fetchWord = .ok .ret)

/-- I is written only by ANNN, FX1E and FX29, and by FX55 and FX65 under ADVANCE (10_state.md, index register: its clause
on writers). -/
def Obligations.OnlyIndexInstructionsWriteI : Prop :=
  ∀ s t : State, step s = .next t → t.I ≠ s.I →
    (∃ nnn, decode s.fetchWord = .ok (.ldI nnn)) ∨ (∃ x, decode s.fetchWord = .ok (.addIVx x)) ∨
    (∃ x, decode s.fetchWord = .ok (.ldFVx x)) ∨
    (s.cfg.blockTransferIMode = .advance ∧
      ∃ x, decode s.fetchWord = .ok (.storeRegs x) ∨ decode s.fetchWord = .ok (.loadRegs x))

/-- Only FX33 and FX55 store to memory (20_memory.md, the table of widths by access), and of the host's transactions only
load_program, at 0x200 and above, and reset (20_memory.md, sequential memory model). -/
def Obligations.OnlyStoresWriteMemory : Prop :=
  (∀ (s t : State) (a : Nat), step s = .next t → t.readByte a ≠ s.readByte a →
    ∃ x, decode s.fetchWord = .ok (.ldBVx x) ∨ decode s.fetchWord = .ok (.storeRegs x)) ∧
  (∀ (s u : State) (tr : Transaction) (r : Response) (a : Nat), transact s tr = .next (u, r) →
    u.readByte a ≠ s.readByte a →
    tr = .reset ∨ (∃ b, tr = .execute b) ∨ (0x200 ≤ a % 4096 ∧ ∃ bytes, tr = .loadProgram bytes))

/-- VF is untouched by every instruction that neither produces a flag nor names VF as its destination
(95_test_vectors.md PR-8, derived there from the instruction rules and from 92_eei_decisions.md D13, D15). -/
def Obligations.VFChangesOnlyByFlagsOrAsDestination : Prop :=
  ∀ s t : State, step s = .next t → t.getV 0xF ≠ s.getV 0xF →
    (∃ kk, decode s.fetchWord = .ok (.ldImm 0xF kk) ∨ decode s.fetchWord = .ok (.addImm 0xF kk) ∨
      decode s.fetchWord = .ok (.rnd 0xF kk)) ∨
    (∃ y, decode s.fetchWord = .ok (.ldReg 0xF y) ∨ decode s.fetchWord = .ok (.orReg 0xF y) ∨
      decode s.fetchWord = .ok (.andReg 0xF y) ∨ decode s.fetchWord = .ok (.xorReg 0xF y)) ∨
    (∃ x y, decode s.fetchWord = .ok (.addReg x y) ∨ decode s.fetchWord = .ok (.subReg x y) ∨
      decode s.fetchWord = .ok (.shrReg x y) ∨ decode s.fetchWord = .ok (.subnReg x y) ∨
      decode s.fetchWord = .ok (.shlReg x y)) ∨
    (∃ x y n, decode s.fetchWord = .ok (.drw x y n)) ∨
    decode s.fetchWord = .ok (.ldVxDt 0xF) ∨ decode s.fetchWord = .ok (.ldVxK 0xF) ∨
    decode s.fetchWord = .ok (.loadRegs 0xF)

/-- A jump to itself is the good end of a run: from it every step leaves the state unchanged. The definition of the end of a
run is the spec's own (70_reset_and_hazards.md, boot; 92_eei_decisions.md D6). -/
def Obligations.JumpToSelfEndsARun : Prop :=
  ∀ (s : State) (h : Addr12), s.EndOfRun h → step s = .next s

/-! ### Invariants -/

/-- The reset machine satisfies the invariant of Safety.lean. -/
def Obligations.ResetSatisfiesTheInvariant : Prop := State.reset.Inv

/-- Every step from a state that satisfies the invariant keeps it. -/
def Obligations.StepKeepsTheInvariant : Prop :=
  ∀ s t : State, s.Inv → step s = .next t → t.Inv

/-- From a state that satisfies the invariant, a step always answers a next state: no instruction, no unknown word and no
fetch stops the machine (30_encoding.md R78, R81, R83). -/
def Obligations.StepAlwaysAnswersNext : Prop :=
  ∀ s : State, s.Inv → ∃ t, step s = .next t

/-- Every host transaction keeps the invariant and answers, so every serialised sequence of them does, in any order
(10_state.md R35). -/
def Obligations.TransactionSequencesKeepTheInvariant : Prop :=
  ∀ (trs : List Transaction) (s : State), s.Inv →
    ∃ u rs, transactAll s trs = .next (u, rs) ∧ u.Inv ∧ rs.length = trs.length ∧ u.cfg = s.cfg

/-! ### Host transactions -/

/-- An image of at most 3584 bytes is written from 0x200 on, byte for byte, and nothing else changes; a longer one is rejected
with no state change at all (70_reset_and_hazards.md, load_program). That a longer image is rejected, and that a load is
taken in every state, are the spec's own decisions (92_eei_decisions.md D26, log 9). -/
def Obligations.LoadProgramWritesTheImageOrRejects : Prop :=
  ∀ (s : State) (bytes : List Byte),
    (bytes.length ≤ 4096 - 0x200 → ∃ u, transact s (.loadProgram bytes) = .next (u, .loadOk) ∧
      (∀ k (h : k < bytes.length), u.readByte (0x200 + k) = bytes[k]) ∧
      (∀ a, a < 4096 → (a < 0x200 ∨ 0x200 + bytes.length ≤ a) → u.readByte a = s.readByte a) ∧
      s.OnlyChanges u [.memory]) ∧
    (bytes.length > 4096 - 0x200 → transact s (.loadProgram bytes) = .next (s, .loadRejected))

/-- set_key sets the one key and nothing else (46_keypad.md, keypad input port). Outside its precondition it has no effect
and is recorded as a violation, which is the spec's own decision (92_eei_decisions.md D28, log 10). -/
def Obligations.SetKeySetsOneKey : Prop :=
  ∀ (s : State) (pressed : Bool),
    (∀ k : Nibble, ∃ u, transact s (.setKey k.val pressed) = .next (u, .done) ∧ u.keyDown k = pressed ∧
      (∀ j : Nibble, j ≠ k → u.keyDown j = s.keyDown j) ∧ s.OnlyChanges u [.keys]) ∧
    (∀ k : Nat, 16 ≤ k → transact s (.setKey k pressed) = .next (s, .violation (.keyIndex k)))

/-- tick_timers takes one from each timer that is not zero and leaves a zero timer, whatever the fault; get_fault answers
the fault and changes nothing. That a timer stops at zero is the spec's own decision (47_timers.md, timer interface;
92_eei_decisions.md D20). -/
def Obligations.TickDecrementsAndStopsAtZero : Prop :=
  ∀ s : State,
    (∃ u, transact s .tickTimers = .next (u, .done) ∧ u.DT.toNat = s.DT.toNat - 1 ∧ u.ST.toNat = s.ST.toNat - 1 ∧
      s.OnlyChanges u [.delay, .sound]) ∧
    transact s .getFault = .next (s, .faultStatus s.fault)
end

