-- ==== Sys2Proof/Laws/Decode.lean ====
section
/-! SUPPORT. The fields of a word as arithmetic on its number, the words of the opcode map as numbers, and the encoder's word
of each format (30_encoding.md R71, R73). -/

namespace Sys2Proof

/-! ### Fields as arithmetic -/

theorem nibbleAt_val (w : Word) (lo : Nat) : (nibbleAt w lo).val = w.toNat / 2 ^ lo % 16 := by
  simp [nibbleAt, Nat.shiftRight_eq_div_pow]

theorem fieldC_val (w : Word) : (fieldC w).val = w.toNat / 4096 := by
  rw [fieldC, nibbleAt_val]
  have := w.isLt
  omega

theorem fieldX_val (w : Word) : (fieldX w).val = w.toNat / 256 % 16 := nibbleAt_val w 8

theorem fieldY_val (w : Word) : (fieldY w).val = w.toNat / 16 % 16 := nibbleAt_val w 4

theorem fieldN_val (w : Word) : (fieldN w).val = w.toNat % 16 := by
  rw [fieldN, nibbleAt_val]; simp

theorem fieldKK_toNat (w : Word) : (fieldKK w).toNat = w.toNat % 256 := by
  simp [fieldKK]

theorem fieldNNN_toNat (w : Word) : (fieldNNN w).toNat = w.toNat % 4096 := by
  simp [fieldNNN]

/-- A word is its class and its low 12 bits; its low 12 bits are x and kk; kk is y and n. -/
theorem word_toNat_fields (w : Word) :
    w.toNat = (fieldC w).val * 4096 + (fieldNNN w).toNat ∧
    (fieldNNN w).toNat = (fieldX w).val * 256 + (fieldKK w).toNat ∧
    (fieldKK w).toNat = (fieldY w).val * 16 + (fieldN w).val := by
  rw [fieldC_val, fieldX_val, fieldY_val, fieldN_val, fieldKK_toNat, fieldNNN_toNat]
  omega

/-! ### Words as numbers -/

theorem nibblesWord_toNat {c n : Nat} (hc : c < 16) (x y : Nibble) (hn : n < 16) :
    (Machine.nibblesWord c x.val y.val n).toNat = c * 4096 + x.val * 256 + y.val * 16 + n := by
  rw [Machine.nibblesWord, BitVec.toNat_ofNat]
  omega

theorem byteWord_toNat {c kk : Nat} (hc : c < 16) (x : Nibble) (hk : kk < 256) :
    (Machine.byteWord c x.val kk).toNat = c * 4096 + x.val * 256 + kk := by
  rw [Machine.byteWord, BitVec.toNat_ofNat]
  omega

theorem addrWord_toNat {c : Nat} (hc : c < 16) (nnn : Addr12) :
    (Machine.addrWord c nnn.toNat).toNat = c * 4096 + nnn.toNat := by
  rw [Machine.addrWord, BitVec.toNat_ofNat]
  have := nnn.isLt
  omega

/-- The fields of a word given by its four nibbles. -/
theorem nibblesWord_fields {c n : Nat} (hc : c < 16) (x y : Nibble) (hn : n < 16) :
    (fieldC (Machine.nibblesWord c x.val y.val n)).val = c ∧ fieldX (Machine.nibblesWord c x.val y.val n) = x ∧
    fieldY (Machine.nibblesWord c x.val y.val n) = y ∧ (fieldN (Machine.nibblesWord c x.val y.val n)).val = n := by
  have h := nibblesWord_toNat hc x y hn
  exact ⟨by rw [fieldC_val, h]; omega, Fin.ext (by rw [fieldX_val, h]; omega), Fin.ext (by rw [fieldY_val, h]; omega),
    by rw [fieldN_val, h]; omega⟩

/-- The fields of a word given by its two high nibbles and its low byte. -/
theorem byteWord_fields {c kk : Nat} (hc : c < 16) (x : Nibble) (hk : kk < 256) :
    (fieldC (Machine.byteWord c x.val kk)).val = c ∧ fieldX (Machine.byteWord c x.val kk) = x ∧
    fieldKK (Machine.byteWord c x.val kk) = BitVec.ofNat 8 kk := by
  have h := byteWord_toNat hc x hk
  exact ⟨by rw [fieldC_val, h]; omega, Fin.ext (by rw [fieldX_val, h]; omega),
    BitVec.eq_of_toNat_eq (by rw [fieldKK_toNat, h, BitVec.toNat_ofNat]; omega)⟩

/-- The fields of a word given by its top nibble and its low 12 bits. -/
theorem addrWord_fields {c : Nat} (hc : c < 16) (nnn : Addr12) :
    (fieldC (Machine.addrWord c nnn.toNat)).val = c ∧ fieldNNN (Machine.addrWord c nnn.toNat) = nnn := by
  have h := addrWord_toNat hc nnn
  have := nnn.isLt
  exact ⟨by rw [fieldC_val, h]; omega, BitVec.eq_of_toNat_eq (by rw [fieldNNN_toNat, h]; omega)⟩

theorem zextAddr_toNat (nnn : Addr12) : (zextAddr nnn).toNat = nnn.toNat := by
  have := nnn.isLt
  rw [zextAddr, BitVec.toNat_setWidth, Nat.mod_eq_of_lt (by omega)]

theorem zextByte_toNat (b : Byte) : (zextByte b).toNat = b.toNat := by
  have := b.isLt
  rw [zextByte, BitVec.toNat_setWidth, Nat.mod_eq_of_lt (by omega)]

/-- Putting a part below bit k under a part that is a multiple of 2^k adds the two. -/
theorem or_low_toNat (k : Nat) (hi : Nat) (a b : Word) (ha : a.toNat = 2 ^ k * hi) (hb : b.toNat < 2 ^ k) :
    (a ||| b).toNat = 2 ^ k * hi + b.toNat := by
  rw [BitVec.toNat_or, ha, Nat.two_pow_add_eq_or_of_lt hb]

/-- A word is the bits of its fields. -/
theorem word_eq_fields (w : Word) :
    w = BitVec.ofNat 16 ((fieldC w).val * 4096 + (fieldX w).val * 256 + (fieldY w).val * 16 + (fieldN w).val) := by
  apply BitVec.eq_of_toNat_eq
  obtain ⟨h1, h2, h3⟩ := word_toNat_fields w
  rw [BitVec.toNat_ofNat]
  omega

/-! ### The encoder's word of each format -/

/-- Format NNN. -/
theorem encodeNNN_toNat (c : Nibble) (nnn : Addr12) :
    (BitVec.ofNat 16 (c.val * 4096) ||| zextAddr nnn : Word).toNat = c.val * 4096 + nnn.toNat := by
  have := nnn.isLt
  rw [or_low_toNat 12 c.val _ _ (by rw [BitVec.toNat_ofNat]; omega) (by rw [zextAddr_toNat]; omega), zextAddr_toNat]
  omega

/-- Format XNN. -/
theorem encodeXNN_toNat (c x : Nibble) (kk : Byte) :
    (BitVec.ofNat 16 (c.val * 4096) ||| (placeX x ||| zextByte kk) : Word).toNat
      = c.val * 4096 + x.val * 256 + kk.toNat := by
  have := kk.isLt
  have hlow : (placeX x ||| zextByte kk).toNat = x.val * 256 + kk.toNat := by
    rw [or_low_toNat 8 x.val _ _ (by rw [placeX, BitVec.toNat_ofNat]; omega) (by rw [zextByte_toNat]; omega),
      zextByte_toNat]
    omega
  rw [or_low_toNat 12 c.val _ _ (by rw [BitVec.toNat_ofNat]; omega) (by rw [hlow]; omega), hlow]
  omega

/-- The fields x and y. -/
theorem placeXY_toNat (x y : Nibble) : (placeX x ||| placeY y).toNat = x.val * 256 + y.val * 16 := by
  have hy : (placeY y).toNat = y.val * 16 := by rw [placeY, BitVec.toNat_ofNat]; omega
  rw [or_low_toNat 8 x.val _ _ (by rw [placeX, BitVec.toNat_ofNat]; omega) (by rw [hy]; omega), hy]
  omega

/-- Format XYN. -/
theorem encodeXYN_toNat (c x y n : Nibble) :
    (BitVec.ofNat 16 (c.val * 4096) ||| (placeX x ||| placeY y ||| placeN n) : Word).toNat
      = c.val * 4096 + x.val * 256 + y.val * 16 + n.val := by
  have hn : (placeN n).toNat = n.val := by rw [placeN, BitVec.toNat_ofNat]; omega
  have hlow : (placeX x ||| placeY y ||| placeN n).toNat = x.val * 256 + y.val * 16 + n.val := by
    rw [or_low_toNat 4 (x.val * 16 + y.val) _ _ (by rw [placeXY_toNat]; omega) (by rw [hn]; omega), hn]
    omega
  rw [or_low_toNat 12 c.val _ _ (by rw [BitVec.toNat_ofNat]; omega) (by rw [hlow]; omega), hlow]
  omega

/-- Format XYS, and F0 for its low byte's nibbles: the fixed bits are the class and the sub-opcode in n. -/
theorem encodeXYS_toNat (c x y n : Nibble) :
    (BitVec.ofNat 16 (c.val * 4096 + n.val) ||| (placeX x ||| placeY y) : Word).toNat
      = c.val * 4096 + x.val * 256 + y.val * 16 + n.val := by
  have hn : (placeN n).toNat = n.val := by rw [placeN, BitVec.toNat_ofNat]; omega
  have hc : (BitVec.ofNat 16 (c.val * 4096) : Word).toNat = 2 ^ 12 * c.val := by rw [BitVec.toNat_ofNat]; omega
  have hfix : (BitVec.ofNat 16 (c.val * 4096 + n.val) : Word) = BitVec.ofNat 16 (c.val * 4096) ||| placeN n :=
    BitVec.eq_of_toNat_eq (by rw [or_low_toNat 12 c.val _ _ hc (by omega), BitVec.toNat_ofNat]; omega)
  rw [hfix, BitVec.or_assoc, BitVec.or_comm (placeN n), encodeXYN_toNat]

/-- Format XS: the fixed bits are the class and the sub-opcode in kk. -/
theorem encodeXS_toNat (c x : Nibble) (kk : Byte) :
    (BitVec.ofNat 16 (c.val * 4096 + kk.toNat) ||| placeX x : Word).toNat = c.val * 4096 + x.val * 256 + kk.toNat := by
  have := kk.isLt
  have hk := zextByte_toNat kk
  have hc : (BitVec.ofNat 16 (c.val * 4096) : Word).toNat = 2 ^ 12 * c.val := by rw [BitVec.toNat_ofNat]; omega
  have hfix : (BitVec.ofNat 16 (c.val * 4096 + kk.toNat) : Word) = BitVec.ofNat 16 (c.val * 4096) ||| zextByte kk :=
    BitVec.eq_of_toNat_eq (by rw [or_low_toNat 12 c.val _ _ hc (by omega), BitVec.toNat_ofNat]; omega)
  rw [hfix, BitVec.or_assoc, BitVec.or_comm (zextByte kk), encodeXNN_toNat]

/-! ### What a row's mask leaves of a word -/

/-- The mask of formats NNN, XNN and XYN leaves the class. -/
theorem and_F000 (w : Word) : w &&& 0xF000 = BitVec.ofNat 16 ((fieldC w).val * 4096) := by
  have h : w &&& (0xF000 : Word) = (w >>> 12) <<< 12 := by
    ext j hj
    simp only [BitVec.getElem_and, BitVec.getElem_shiftLeft]
    interval_cases j <;> simp [BitVec.getLsbD_eq_getElem]
  rw [h]
  apply BitVec.eq_of_toNat_eq
  have := w.isLt
  rw [fieldC_val, BitVec.toNat_shiftLeft, BitVec.toNat_ushiftRight, Nat.shiftRight_eq_div_pow,
    Nat.shiftLeft_eq, BitVec.toNat_ofNat]

/-- A mask of the low k bits is a remainder. -/
theorem and_lowMask_toNat (w : Word) (k : Nat) (m : Word) (hm : m = BitVec.ofNat 16 (2 ^ k - 1)) (hk : k ≤ 16) :
    (w &&& m).toNat = w.toNat % 2 ^ k := by
  subst hm
  have hlt : 2 ^ k - 1 < 2 ^ 16 := by
    have := Nat.pow_le_pow_right (show 0 < 2 by decide) hk
    have := Nat.two_pow_pos k
    omega
  rw [BitVec.toNat_and, BitVec.toNat_ofNat, Nat.mod_eq_of_lt hlt, Nat.and_two_pow_sub_one_eq_mod]

/-- The mask of format XYS leaves the class and n. -/
theorem and_F00F (w : Word) : w &&& 0xF00F = BitVec.ofNat 16 ((fieldC w).val * 4096 + (fieldN w).val) := by
  have h : (0xF00F : Word) = 0xF000 ||| 0x000F := by decide
  have hn := and_lowMask_toNat w 4 0x000F (by decide) (by decide)
  have hc := fieldC_val w
  have := w.isLt
  apply BitVec.eq_of_toNat_eq
  rw [h, BitVec.and_or_distrib_left, and_F000,
    or_low_toNat 12 (fieldC w).val _ _ (by rw [BitVec.toNat_ofNat]; omega) (by rw [hn]; omega), hn, fieldN_val, BitVec.toNat_ofNat]
  omega

/-- The mask of format XS leaves the class and kk. -/
theorem and_F0FF (w : Word) : w &&& 0xF0FF = BitVec.ofNat 16 ((fieldC w).val * 4096 + (fieldKK w).toNat) := by
  have h : (0xF0FF : Word) = 0xF000 ||| 0x00FF := by decide
  have hn := and_lowMask_toNat w 8 0x00FF (by decide) (by decide)
  have hc := fieldC_val w
  have := w.isLt
  apply BitVec.eq_of_toNat_eq
  rw [h, BitVec.and_or_distrib_left, and_F000,
    or_low_toNat 12 (fieldC w).val _ _ (by rw [BitVec.toNat_ofNat]; omega) (by rw [hn]; omega), hn, fieldKK_toNat, BitVec.toNat_ofNat]
  omega

end Sys2Proof
end

