-- ==== Sys2Proof/Laws/State.lean ====
section
/-! SUPPORT. One lemma for each field of State after each single update, and the same for the accessors of V, keypad,
display and memory, so that no proof unfolds a record update. -/

namespace Sys2Proof.Machine

variable (s : State)

/-! ### setV -/

@[simp] theorem State.setV_V (x : Nibble) (v : Byte) : (s.setV x v).V = s.V.set x v := rfl
@[simp] theorem State.setV_I (x : Nibble) (v : Byte) : (s.setV x v).I = s.I := rfl
@[simp] theorem State.setV_pc (x : Nibble) (v : Byte) : (s.setV x v).pc = s.pc := rfl
@[simp] theorem State.setV_stack (x : Nibble) (v : Byte) : (s.setV x v).stack = s.stack := rfl
@[simp] theorem State.setV_sp (x : Nibble) (v : Byte) : (s.setV x v).sp = s.sp := rfl
@[simp] theorem State.setV_DT (x : Nibble) (v : Byte) : (s.setV x v).DT = s.DT := rfl
@[simp] theorem State.setV_ST (x : Nibble) (v : Byte) : (s.setV x v).ST = s.ST := rfl
@[simp] theorem State.setV_keys (x : Nibble) (v : Byte) : (s.setV x v).keys = s.keys := rfl
@[simp] theorem State.setV_display (x : Nibble) (v : Byte) : (s.setV x v).display = s.display := rfl
@[simp] theorem State.setV_mem (x : Nibble) (v : Byte) : (s.setV x v).mem = s.mem := rfl
@[simp] theorem State.setV_fault (x : Nibble) (v : Byte) : (s.setV x v).fault = s.fault := rfl
@[simp] theorem State.setV_cfg (x : Nibble) (v : Byte) : (s.setV x v).cfg = s.cfg := rfl
@[simp] theorem State.setV_rnd (x : Nibble) (v : Byte) : (s.setV x v).rnd = s.rnd := rfl
@[simp] theorem State.setV_draws (x : Nibble) (v : Byte) : (s.setV x v).draws = s.draws := rfl
@[simp] theorem State.setV_keyDown (x : Nibble) (v : Byte) (j : Nibble) : (s.setV x v).keyDown j = s.keyDown j := rfl
@[simp] theorem State.setV_pix (x : Nibble) (v : Byte) (px : Fin 64) (py : Fin 32) : (s.setV x v).pix px py = s.pix px py := rfl
@[simp] theorem State.setV_readByte (x : Nibble) (v : Byte) (addr : Nat) : (s.setV x v).readByte addr = s.readByte addr := rfl

/-! ### setI -/

@[simp] theorem State.setI_V (v : Word) : (s.setI v).V = s.V := rfl
@[simp] theorem State.setI_I (v : Word) : (s.setI v).I = v := rfl
@[simp] theorem State.setI_pc (v : Word) : (s.setI v).pc = s.pc := rfl
@[simp] theorem State.setI_stack (v : Word) : (s.setI v).stack = s.stack := rfl
@[simp] theorem State.setI_sp (v : Word) : (s.setI v).sp = s.sp := rfl
@[simp] theorem State.setI_DT (v : Word) : (s.setI v).DT = s.DT := rfl
@[simp] theorem State.setI_ST (v : Word) : (s.setI v).ST = s.ST := rfl
@[simp] theorem State.setI_keys (v : Word) : (s.setI v).keys = s.keys := rfl
@[simp] theorem State.setI_display (v : Word) : (s.setI v).display = s.display := rfl
@[simp] theorem State.setI_mem (v : Word) : (s.setI v).mem = s.mem := rfl
@[simp] theorem State.setI_fault (v : Word) : (s.setI v).fault = s.fault := rfl
@[simp] theorem State.setI_cfg (v : Word) : (s.setI v).cfg = s.cfg := rfl
@[simp] theorem State.setI_rnd (v : Word) : (s.setI v).rnd = s.rnd := rfl
@[simp] theorem State.setI_draws (v : Word) : (s.setI v).draws = s.draws := rfl
@[simp] theorem State.setI_getV (v : Word) (y : Nibble) : (s.setI v).getV y = s.getV y := rfl
@[simp] theorem State.setI_keyDown (v : Word) (j : Nibble) : (s.setI v).keyDown j = s.keyDown j := rfl
@[simp] theorem State.setI_pix (v : Word) (px : Fin 64) (py : Fin 32) : (s.setI v).pix px py = s.pix px py := rfl
@[simp] theorem State.setI_readByte (v : Word) (addr : Nat) : (s.setI v).readByte addr = s.readByte addr := rfl

/-! ### setPc -/

@[simp] theorem State.setPc_V (v : Word) : (s.setPc v).V = s.V := rfl
@[simp] theorem State.setPc_I (v : Word) : (s.setPc v).I = s.I := rfl
@[simp] theorem State.setPc_pc (v : Word) : (s.setPc v).pc = v := rfl
@[simp] theorem State.setPc_stack (v : Word) : (s.setPc v).stack = s.stack := rfl
@[simp] theorem State.setPc_sp (v : Word) : (s.setPc v).sp = s.sp := rfl
@[simp] theorem State.setPc_DT (v : Word) : (s.setPc v).DT = s.DT := rfl
@[simp] theorem State.setPc_ST (v : Word) : (s.setPc v).ST = s.ST := rfl
@[simp] theorem State.setPc_keys (v : Word) : (s.setPc v).keys = s.keys := rfl
@[simp] theorem State.setPc_display (v : Word) : (s.setPc v).display = s.display := rfl
@[simp] theorem State.setPc_mem (v : Word) : (s.setPc v).mem = s.mem := rfl
@[simp] theorem State.setPc_fault (v : Word) : (s.setPc v).fault = s.fault := rfl
@[simp] theorem State.setPc_cfg (v : Word) : (s.setPc v).cfg = s.cfg := rfl
@[simp] theorem State.setPc_rnd (v : Word) : (s.setPc v).rnd = s.rnd := rfl
@[simp] theorem State.setPc_draws (v : Word) : (s.setPc v).draws = s.draws := rfl
@[simp] theorem State.setPc_getV (v : Word) (y : Nibble) : (s.setPc v).getV y = s.getV y := rfl
@[simp] theorem State.setPc_keyDown (v : Word) (j : Nibble) : (s.setPc v).keyDown j = s.keyDown j := rfl
@[simp] theorem State.setPc_pix (v : Word) (px : Fin 64) (py : Fin 32) : (s.setPc v).pix px py = s.pix px py := rfl
@[simp] theorem State.setPc_readByte (v : Word) (addr : Nat) : (s.setPc v).readByte addr = s.readByte addr := rfl

/-! ### setDT -/

@[simp] theorem State.setDT_V (v : Byte) : (s.setDT v).V = s.V := rfl
@[simp] theorem State.setDT_I (v : Byte) : (s.setDT v).I = s.I := rfl
@[simp] theorem State.setDT_pc (v : Byte) : (s.setDT v).pc = s.pc := rfl
@[simp] theorem State.setDT_stack (v : Byte) : (s.setDT v).stack = s.stack := rfl
@[simp] theorem State.setDT_sp (v : Byte) : (s.setDT v).sp = s.sp := rfl
@[simp] theorem State.setDT_DT (v : Byte) : (s.setDT v).DT = v := rfl
@[simp] theorem State.setDT_ST (v : Byte) : (s.setDT v).ST = s.ST := rfl
@[simp] theorem State.setDT_keys (v : Byte) : (s.setDT v).keys = s.keys := rfl
@[simp] theorem State.setDT_display (v : Byte) : (s.setDT v).display = s.display := rfl
@[simp] theorem State.setDT_mem (v : Byte) : (s.setDT v).mem = s.mem := rfl
@[simp] theorem State.setDT_fault (v : Byte) : (s.setDT v).fault = s.fault := rfl
@[simp] theorem State.setDT_cfg (v : Byte) : (s.setDT v).cfg = s.cfg := rfl
@[simp] theorem State.setDT_rnd (v : Byte) : (s.setDT v).rnd = s.rnd := rfl
@[simp] theorem State.setDT_draws (v : Byte) : (s.setDT v).draws = s.draws := rfl
@[simp] theorem State.setDT_getV (v : Byte) (y : Nibble) : (s.setDT v).getV y = s.getV y := rfl
@[simp] theorem State.setDT_keyDown (v : Byte) (j : Nibble) : (s.setDT v).keyDown j = s.keyDown j := rfl
@[simp] theorem State.setDT_pix (v : Byte) (px : Fin 64) (py : Fin 32) : (s.setDT v).pix px py = s.pix px py := rfl
@[simp] theorem State.setDT_readByte (v : Byte) (addr : Nat) : (s.setDT v).readByte addr = s.readByte addr := rfl

/-! ### setST -/

@[simp] theorem State.setST_V (v : Byte) : (s.setST v).V = s.V := rfl
@[simp] theorem State.setST_I (v : Byte) : (s.setST v).I = s.I := rfl
@[simp] theorem State.setST_pc (v : Byte) : (s.setST v).pc = s.pc := rfl
@[simp] theorem State.setST_stack (v : Byte) : (s.setST v).stack = s.stack := rfl
@[simp] theorem State.setST_sp (v : Byte) : (s.setST v).sp = s.sp := rfl
@[simp] theorem State.setST_DT (v : Byte) : (s.setST v).DT = s.DT := rfl
@[simp] theorem State.setST_ST (v : Byte) : (s.setST v).ST = v := rfl
@[simp] theorem State.setST_keys (v : Byte) : (s.setST v).keys = s.keys := rfl
@[simp] theorem State.setST_display (v : Byte) : (s.setST v).display = s.display := rfl
@[simp] theorem State.setST_mem (v : Byte) : (s.setST v).mem = s.mem := rfl
@[simp] theorem State.setST_fault (v : Byte) : (s.setST v).fault = s.fault := rfl
@[simp] theorem State.setST_cfg (v : Byte) : (s.setST v).cfg = s.cfg := rfl
@[simp] theorem State.setST_rnd (v : Byte) : (s.setST v).rnd = s.rnd := rfl
@[simp] theorem State.setST_draws (v : Byte) : (s.setST v).draws = s.draws := rfl
@[simp] theorem State.setST_getV (v : Byte) (y : Nibble) : (s.setST v).getV y = s.getV y := rfl
@[simp] theorem State.setST_keyDown (v : Byte) (j : Nibble) : (s.setST v).keyDown j = s.keyDown j := rfl
@[simp] theorem State.setST_pix (v : Byte) (px : Fin 64) (py : Fin 32) : (s.setST v).pix px py = s.pix px py := rfl
@[simp] theorem State.setST_readByte (v : Byte) (addr : Nat) : (s.setST v).readByte addr = s.readByte addr := rfl

/-! ### setDisplay -/

@[simp] theorem State.setDisplay_V (d : Display) : (s.setDisplay d).V = s.V := rfl
@[simp] theorem State.setDisplay_I (d : Display) : (s.setDisplay d).I = s.I := rfl
@[simp] theorem State.setDisplay_pc (d : Display) : (s.setDisplay d).pc = s.pc := rfl
@[simp] theorem State.setDisplay_stack (d : Display) : (s.setDisplay d).stack = s.stack := rfl
@[simp] theorem State.setDisplay_sp (d : Display) : (s.setDisplay d).sp = s.sp := rfl
@[simp] theorem State.setDisplay_DT (d : Display) : (s.setDisplay d).DT = s.DT := rfl
@[simp] theorem State.setDisplay_ST (d : Display) : (s.setDisplay d).ST = s.ST := rfl
@[simp] theorem State.setDisplay_keys (d : Display) : (s.setDisplay d).keys = s.keys := rfl
@[simp] theorem State.setDisplay_display (d : Display) : (s.setDisplay d).display = d := rfl
@[simp] theorem State.setDisplay_mem (d : Display) : (s.setDisplay d).mem = s.mem := rfl
@[simp] theorem State.setDisplay_fault (d : Display) : (s.setDisplay d).fault = s.fault := rfl
@[simp] theorem State.setDisplay_cfg (d : Display) : (s.setDisplay d).cfg = s.cfg := rfl
@[simp] theorem State.setDisplay_rnd (d : Display) : (s.setDisplay d).rnd = s.rnd := rfl
@[simp] theorem State.setDisplay_draws (d : Display) : (s.setDisplay d).draws = s.draws := rfl
@[simp] theorem State.setDisplay_getV (d : Display) (y : Nibble) : (s.setDisplay d).getV y = s.getV y := rfl
@[simp] theorem State.setDisplay_keyDown (d : Display) (j : Nibble) : (s.setDisplay d).keyDown j = s.keyDown j := rfl
@[simp] theorem State.setDisplay_readByte (d : Display) (addr : Nat) : (s.setDisplay d).readByte addr = s.readByte addr := rfl

/-! ### setFault -/

@[simp] theorem State.setFault_V (f : FaultStatus) : (s.setFault f).V = s.V := rfl
@[simp] theorem State.setFault_I (f : FaultStatus) : (s.setFault f).I = s.I := rfl
@[simp] theorem State.setFault_pc (f : FaultStatus) : (s.setFault f).pc = s.pc := rfl
@[simp] theorem State.setFault_stack (f : FaultStatus) : (s.setFault f).stack = s.stack := rfl
@[simp] theorem State.setFault_sp (f : FaultStatus) : (s.setFault f).sp = s.sp := rfl
@[simp] theorem State.setFault_DT (f : FaultStatus) : (s.setFault f).DT = s.DT := rfl
@[simp] theorem State.setFault_ST (f : FaultStatus) : (s.setFault f).ST = s.ST := rfl
@[simp] theorem State.setFault_keys (f : FaultStatus) : (s.setFault f).keys = s.keys := rfl
@[simp] theorem State.setFault_display (f : FaultStatus) : (s.setFault f).display = s.display := rfl
@[simp] theorem State.setFault_mem (f : FaultStatus) : (s.setFault f).mem = s.mem := rfl
@[simp] theorem State.setFault_fault (f : FaultStatus) : (s.setFault f).fault = f := rfl
@[simp] theorem State.setFault_cfg (f : FaultStatus) : (s.setFault f).cfg = s.cfg := rfl
@[simp] theorem State.setFault_rnd (f : FaultStatus) : (s.setFault f).rnd = s.rnd := rfl
@[simp] theorem State.setFault_draws (f : FaultStatus) : (s.setFault f).draws = s.draws := rfl
@[simp] theorem State.setFault_getV (f : FaultStatus) (y : Nibble) : (s.setFault f).getV y = s.getV y := rfl
@[simp] theorem State.setFault_keyDown (f : FaultStatus) (j : Nibble) : (s.setFault f).keyDown j = s.keyDown j := rfl
@[simp] theorem State.setFault_pix (f : FaultStatus) (px : Fin 64) (py : Fin 32) : (s.setFault f).pix px py = s.pix px py := rfl
@[simp] theorem State.setFault_readByte (f : FaultStatus) (addr : Nat) : (s.setFault f).readByte addr = s.readByte addr := rfl

/-! ### setKey -/

@[simp] theorem State.setKey_V (k : Nibble) (p : Bool) : (s.setKey k p).V = s.V := rfl
@[simp] theorem State.setKey_I (k : Nibble) (p : Bool) : (s.setKey k p).I = s.I := rfl
@[simp] theorem State.setKey_pc (k : Nibble) (p : Bool) : (s.setKey k p).pc = s.pc := rfl
@[simp] theorem State.setKey_stack (k : Nibble) (p : Bool) : (s.setKey k p).stack = s.stack := rfl
@[simp] theorem State.setKey_sp (k : Nibble) (p : Bool) : (s.setKey k p).sp = s.sp := rfl
@[simp] theorem State.setKey_DT (k : Nibble) (p : Bool) : (s.setKey k p).DT = s.DT := rfl
@[simp] theorem State.setKey_ST (k : Nibble) (p : Bool) : (s.setKey k p).ST = s.ST := rfl
@[simp] theorem State.setKey_keys (k : Nibble) (p : Bool) : (s.setKey k p).keys = s.keys.set k p := rfl
@[simp] theorem State.setKey_display (k : Nibble) (p : Bool) : (s.setKey k p).display = s.display := rfl
@[simp] theorem State.setKey_mem (k : Nibble) (p : Bool) : (s.setKey k p).mem = s.mem := rfl
@[simp] theorem State.setKey_fault (k : Nibble) (p : Bool) : (s.setKey k p).fault = s.fault := rfl
@[simp] theorem State.setKey_cfg (k : Nibble) (p : Bool) : (s.setKey k p).cfg = s.cfg := rfl
@[simp] theorem State.setKey_rnd (k : Nibble) (p : Bool) : (s.setKey k p).rnd = s.rnd := rfl
@[simp] theorem State.setKey_draws (k : Nibble) (p : Bool) : (s.setKey k p).draws = s.draws := rfl
@[simp] theorem State.setKey_getV (k : Nibble) (p : Bool) (y : Nibble) : (s.setKey k p).getV y = s.getV y := rfl
@[simp] theorem State.setKey_pix (k : Nibble) (p : Bool) (px : Fin 64) (py : Fin 32) : (s.setKey k p).pix px py = s.pix px py := rfl
@[simp] theorem State.setKey_readByte (k : Nibble) (p : Bool) (addr : Nat) : (s.setKey k p).readByte addr = s.readByte addr := rfl

/-! ### drawRnd -/

@[simp] theorem State.drawRnd_V : s.drawRnd.V = s.V := rfl
@[simp] theorem State.drawRnd_I : s.drawRnd.I = s.I := rfl
@[simp] theorem State.drawRnd_pc : s.drawRnd.pc = s.pc := rfl
@[simp] theorem State.drawRnd_stack : s.drawRnd.stack = s.stack := rfl
@[simp] theorem State.drawRnd_sp : s.drawRnd.sp = s.sp := rfl
@[simp] theorem State.drawRnd_DT : s.drawRnd.DT = s.DT := rfl
@[simp] theorem State.drawRnd_ST : s.drawRnd.ST = s.ST := rfl
@[simp] theorem State.drawRnd_keys : s.drawRnd.keys = s.keys := rfl
@[simp] theorem State.drawRnd_display : s.drawRnd.display = s.display := rfl
@[simp] theorem State.drawRnd_mem : s.drawRnd.mem = s.mem := rfl
@[simp] theorem State.drawRnd_fault : s.drawRnd.fault = s.fault := rfl
@[simp] theorem State.drawRnd_cfg : s.drawRnd.cfg = s.cfg := rfl
@[simp] theorem State.drawRnd_rnd : s.drawRnd.rnd = Config.freeRnd s.draws := rfl
@[simp] theorem State.drawRnd_draws : s.drawRnd.draws = s.draws + 1 := rfl
@[simp] theorem State.drawRnd_getV (y : Nibble) : s.drawRnd.getV y = s.getV y := rfl
@[simp] theorem State.drawRnd_keyDown (j : Nibble) : s.drawRnd.keyDown j = s.keyDown j := rfl
@[simp] theorem State.drawRnd_pix (px : Fin 64) (py : Fin 32) : s.drawRnd.pix px py = s.pix px py := rfl
@[simp] theorem State.drawRnd_readByte (addr : Nat) : s.drawRnd.readByte addr = s.readByte addr := rfl

/-! ### advance -/

@[simp] theorem State.advance_V : s.advance.V = s.V := rfl
@[simp] theorem State.advance_I : s.advance.I = s.I := rfl
@[simp] theorem State.advance_pc : s.advance.pc = s.pc + 2 := rfl
@[simp] theorem State.advance_stack : s.advance.stack = s.stack := rfl
@[simp] theorem State.advance_sp : s.advance.sp = s.sp := rfl
@[simp] theorem State.advance_DT : s.advance.DT = s.DT := rfl
@[simp] theorem State.advance_ST : s.advance.ST = s.ST := rfl
@[simp] theorem State.advance_keys : s.advance.keys = s.keys := rfl
@[simp] theorem State.advance_display : s.advance.display = s.display := rfl
@[simp] theorem State.advance_mem : s.advance.mem = s.mem := rfl
@[simp] theorem State.advance_fault : s.advance.fault = s.fault := rfl
@[simp] theorem State.advance_cfg : s.advance.cfg = s.cfg := rfl
@[simp] theorem State.advance_rnd : s.advance.rnd = s.rnd := rfl
@[simp] theorem State.advance_draws : s.advance.draws = s.draws := rfl
@[simp] theorem State.advance_getV (y : Nibble) : s.advance.getV y = s.getV y := rfl
@[simp] theorem State.advance_keyDown (j : Nibble) : s.advance.keyDown j = s.keyDown j := rfl
@[simp] theorem State.advance_pix (px : Fin 64) (py : Fin 32) : s.advance.pix px py = s.pix px py := rfl
@[simp] theorem State.advance_readByte (addr : Nat) : s.advance.readByte addr = s.readByte addr := rfl

/-! ### raiseFault -/

@[simp] theorem State.raiseFault_V (f : FaultStatus) : (s.raiseFault f).V = s.V := rfl
@[simp] theorem State.raiseFault_I (f : FaultStatus) : (s.raiseFault f).I = s.I := rfl
@[simp] theorem State.raiseFault_pc (f : FaultStatus) : (s.raiseFault f).pc = s.pc - 2 := rfl
@[simp] theorem State.raiseFault_stack (f : FaultStatus) : (s.raiseFault f).stack = s.stack := rfl
@[simp] theorem State.raiseFault_sp (f : FaultStatus) : (s.raiseFault f).sp = s.sp := rfl
@[simp] theorem State.raiseFault_DT (f : FaultStatus) : (s.raiseFault f).DT = s.DT := rfl
@[simp] theorem State.raiseFault_ST (f : FaultStatus) : (s.raiseFault f).ST = s.ST := rfl
@[simp] theorem State.raiseFault_keys (f : FaultStatus) : (s.raiseFault f).keys = s.keys := rfl
@[simp] theorem State.raiseFault_display (f : FaultStatus) : (s.raiseFault f).display = s.display := rfl
@[simp] theorem State.raiseFault_mem (f : FaultStatus) : (s.raiseFault f).mem = s.mem := rfl
@[simp] theorem State.raiseFault_fault (f : FaultStatus) : (s.raiseFault f).fault = f := rfl
@[simp] theorem State.raiseFault_cfg (f : FaultStatus) : (s.raiseFault f).cfg = s.cfg := rfl
@[simp] theorem State.raiseFault_rnd (f : FaultStatus) : (s.raiseFault f).rnd = s.rnd := rfl
@[simp] theorem State.raiseFault_draws (f : FaultStatus) : (s.raiseFault f).draws = s.draws := rfl
@[simp] theorem State.raiseFault_getV (f : FaultStatus) (y : Nibble) : (s.raiseFault f).getV y = s.getV y := rfl
@[simp] theorem State.raiseFault_keyDown (f : FaultStatus) (j : Nibble) : (s.raiseFault f).keyDown j = s.keyDown j := rfl
@[simp] theorem State.raiseFault_pix (f : FaultStatus) (px : Fin 64) (py : Fin 32) : (s.raiseFault f).pix px py = s.pix px py := rfl
@[simp] theorem State.raiseFault_readByte (f : FaultStatus) (addr : Nat) : (s.raiseFault f).readByte addr = s.readByte addr := rfl

/-! ### writeByte -/

@[simp] theorem State.writeByte_V (a : Nat) (v : Byte) : (s.writeByte a v).V = s.V := rfl
@[simp] theorem State.writeByte_I (a : Nat) (v : Byte) : (s.writeByte a v).I = s.I := rfl
@[simp] theorem State.writeByte_pc (a : Nat) (v : Byte) : (s.writeByte a v).pc = s.pc := rfl
@[simp] theorem State.writeByte_stack (a : Nat) (v : Byte) : (s.writeByte a v).stack = s.stack := rfl
@[simp] theorem State.writeByte_sp (a : Nat) (v : Byte) : (s.writeByte a v).sp = s.sp := rfl
@[simp] theorem State.writeByte_DT (a : Nat) (v : Byte) : (s.writeByte a v).DT = s.DT := rfl
@[simp] theorem State.writeByte_ST (a : Nat) (v : Byte) : (s.writeByte a v).ST = s.ST := rfl
@[simp] theorem State.writeByte_keys (a : Nat) (v : Byte) : (s.writeByte a v).keys = s.keys := rfl
@[simp] theorem State.writeByte_display (a : Nat) (v : Byte) : (s.writeByte a v).display = s.display := rfl
@[simp] theorem State.writeByte_mem (a : Nat) (v : Byte) : (s.writeByte a v).mem = Memory.write s.cfg.font s.mem (maskAddr a) v := rfl
@[simp] theorem State.writeByte_fault (a : Nat) (v : Byte) : (s.writeByte a v).fault = s.fault := rfl
@[simp] theorem State.writeByte_cfg (a : Nat) (v : Byte) : (s.writeByte a v).cfg = s.cfg := rfl
@[simp] theorem State.writeByte_rnd (a : Nat) (v : Byte) : (s.writeByte a v).rnd = s.rnd := rfl
@[simp] theorem State.writeByte_draws (a : Nat) (v : Byte) : (s.writeByte a v).draws = s.draws := rfl
@[simp] theorem State.writeByte_getV (a : Nat) (v : Byte) (y : Nibble) : (s.writeByte a v).getV y = s.getV y := rfl
@[simp] theorem State.writeByte_keyDown (a : Nat) (v : Byte) (j : Nibble) : (s.writeByte a v).keyDown j = s.keyDown j := rfl
@[simp] theorem State.writeByte_pix (a : Nat) (v : Byte) (px : Fin 64) (py : Fin 32) : (s.writeByte a v).pix px py = s.pix px py := rfl

/-! ### What an accessor reads after its own update -/

@[simp] theorem State.setV_getV (x : Nibble) (v : Byte) (y : Nibble) :
    (s.setV x v).getV y = if y = x then v else s.getV y := by
  simp only [State.setV, State.getV, Fin.getElem_fin, Vector.getElem_set, Fin.ext_iff, eq_comm]

@[simp] theorem State.setKey_keyDown (k : Nibble) (p : Bool) (j : Nibble) :
    (s.setKey k p).keyDown j = if j = k then p else s.keyDown j := by
  simp only [State.setKey, State.keyDown, Fin.getElem_fin, Vector.getElem_set, Fin.ext_iff, eq_comm]

@[simp] theorem State.setDisplay_pix (d : Display) (px : Fin 64) (py : Fin 32) :
    (s.setDisplay d).pix px py = d.pix px py := rfl

@[simp] theorem State.a0_eq : s.a0 = s.pc - 2 := rfl

/-! ### skipIf and setVThenFlag -/

@[simp] theorem State.skipIf_V (c : Bool) : (s.skipIf c).V = s.V := by cases c <;> rfl
@[simp] theorem State.skipIf_I (c : Bool) : (s.skipIf c).I = s.I := by cases c <;> rfl
@[simp] theorem State.skipIf_pc (c : Bool) : (s.skipIf c).pc = if c then s.pc + 2 else s.pc := by cases c <;> rfl
@[simp] theorem State.skipIf_stack (c : Bool) : (s.skipIf c).stack = s.stack := by cases c <;> rfl
@[simp] theorem State.skipIf_sp (c : Bool) : (s.skipIf c).sp = s.sp := by cases c <;> rfl
@[simp] theorem State.skipIf_DT (c : Bool) : (s.skipIf c).DT = s.DT := by cases c <;> rfl
@[simp] theorem State.skipIf_ST (c : Bool) : (s.skipIf c).ST = s.ST := by cases c <;> rfl
@[simp] theorem State.skipIf_keys (c : Bool) : (s.skipIf c).keys = s.keys := by cases c <;> rfl
@[simp] theorem State.skipIf_display (c : Bool) : (s.skipIf c).display = s.display := by cases c <;> rfl
@[simp] theorem State.skipIf_mem (c : Bool) : (s.skipIf c).mem = s.mem := by cases c <;> rfl
@[simp] theorem State.skipIf_fault (c : Bool) : (s.skipIf c).fault = s.fault := by cases c <;> rfl
@[simp] theorem State.skipIf_cfg (c : Bool) : (s.skipIf c).cfg = s.cfg := by cases c <;> rfl
@[simp] theorem State.skipIf_rnd (c : Bool) : (s.skipIf c).rnd = s.rnd := by cases c <;> rfl
@[simp] theorem State.skipIf_draws (c : Bool) : (s.skipIf c).draws = s.draws := by cases c <;> rfl
@[simp] theorem State.skipIf_getV (c : Bool) (y : Nibble) : (s.skipIf c).getV y = s.getV y := by cases c <;> rfl
@[simp] theorem State.skipIf_keyDown (c : Bool) (j : Nibble) : (s.skipIf c).keyDown j = s.keyDown j := by cases c <;> rfl
@[simp] theorem State.skipIf_pix (c : Bool) (px : Fin 64) (py : Fin 32) : (s.skipIf c).pix px py = s.pix px py := by cases c <;> rfl
@[simp] theorem State.skipIf_readByte (c : Bool) (addr : Nat) : (s.skipIf c).readByte addr = s.readByte addr := by cases c <;> rfl

@[simp] theorem State.setVThenFlag_I (x : Nibble) (a b : Byte) : (s.setVThenFlag x a b).I = s.I := rfl
@[simp] theorem State.setVThenFlag_pc (x : Nibble) (a b : Byte) : (s.setVThenFlag x a b).pc = s.pc := rfl
@[simp] theorem State.setVThenFlag_stack (x : Nibble) (a b : Byte) : (s.setVThenFlag x a b).stack = s.stack := rfl
@[simp] theorem State.setVThenFlag_sp (x : Nibble) (a b : Byte) : (s.setVThenFlag x a b).sp = s.sp := rfl
@[simp] theorem State.setVThenFlag_DT (x : Nibble) (a b : Byte) : (s.setVThenFlag x a b).DT = s.DT := rfl
@[simp] theorem State.setVThenFlag_ST (x : Nibble) (a b : Byte) : (s.setVThenFlag x a b).ST = s.ST := rfl
@[simp] theorem State.setVThenFlag_keys (x : Nibble) (a b : Byte) : (s.setVThenFlag x a b).keys = s.keys := rfl
@[simp] theorem State.setVThenFlag_display (x : Nibble) (a b : Byte) : (s.setVThenFlag x a b).display = s.display := rfl
@[simp] theorem State.setVThenFlag_mem (x : Nibble) (a b : Byte) : (s.setVThenFlag x a b).mem = s.mem := rfl
@[simp] theorem State.setVThenFlag_fault (x : Nibble) (a b : Byte) : (s.setVThenFlag x a b).fault = s.fault := rfl
@[simp] theorem State.setVThenFlag_cfg (x : Nibble) (a b : Byte) : (s.setVThenFlag x a b).cfg = s.cfg := rfl
@[simp] theorem State.setVThenFlag_rnd (x : Nibble) (a b : Byte) : (s.setVThenFlag x a b).rnd = s.rnd := rfl
@[simp] theorem State.setVThenFlag_draws (x : Nibble) (a b : Byte) : (s.setVThenFlag x a b).draws = s.draws := rfl
@[simp] theorem State.setVThenFlag_keyDown (x : Nibble) (a b : Byte) (j : Nibble) :
    (s.setVThenFlag x a b).keyDown j = s.keyDown j := rfl
@[simp] theorem State.setVThenFlag_pix (x : Nibble) (a b : Byte) (px : Fin 64) (py : Fin 32) :
    (s.setVThenFlag x a b).pix px py = s.pix px py := rfl
@[simp] theorem State.setVThenFlag_readByte (x : Nibble) (a b : Byte) (addr : Nat) :
    (s.setVThenFlag x a b).readByte addr = s.readByte addr := rfl

@[simp] theorem State.setVThenFlag_getV (x : Nibble) (a b : Byte) (y : Nibble) :
    (s.setVThenFlag x a b).getV y = if y = flagReg then b else if y = x then a else s.getV y := by
  simp [State.setVThenFlag]

end Sys2Proof.Machine
end

