-- ==== Sys2Proof/Laws/Memory.lean ====
section
/-! SUPPORT. The laws of memory: what a read gives after a write, that every write keeps the canonical form, and what a
multi-byte store leaves (20_memory.md R51, R52, R59). -/

namespace Sys2Proof.Machine

/-! ### One cell -/

theorem maskAddr_eq_mod (a : Nat) : maskAddr a = a % 4096 :=
  Nat.and_two_pow_sub_one_eq_mod a 12

theorem maskAddr_lt (a : Nat) : maskAddr a < memSize := by
  rw [maskAddr_eq_mod]; exact Nat.mod_lt _ (by decide)

theorem Memory.read_filter_ne (font : Font) (m : Memory) (a b : Nat) :
    Memory.read font (m.filter (fun c => c.1 ≠ a)) b
      = if b = a then Memory.unlisted font a else Memory.read font m b := by
  induction m with
  | nil => split <;> simp_all [Memory.read]
  | cons c m ih =>
    obtain ⟨k, u⟩ := c
    by_cases hk : k = a
    · subst hk
      rw [List.filter_cons_of_neg (by simp), ih, Memory.read]
      split <;> rfl
    · rw [List.filter_cons_of_pos (by simpa using hk), Memory.read, ih, Memory.read]
      split <;> split <;> simp_all

theorem Memory.read_insert (font : Font) (m : Memory) (a b : Nat) (v : Byte) :
    Memory.read font (Memory.insert m a v) b = if b = a then v else Memory.read font m b := by
  induction m with
  | nil => simp [Memory.insert, Memory.read]
  | cons c m ih =>
    obtain ⟨k, u⟩ := c
    simp only [Memory.insert]
    split
    · simp [Memory.read]
    · split
      · subst_vars
        simp only [Memory.read]
        split <;> simp_all
      · simp only [Memory.read, ih]
        split <;> split <;> simp_all

/-- A read after a write: the written byte at its address, the old byte everywhere else. -/
theorem Memory.read_write (font : Font) (m : Memory) (a b : Nat) (v : Byte) :
    Memory.read font (Memory.write font m a v) b = if b = a then v else Memory.read font m b := by
  rw [Memory.write]
  split
  · rw [Memory.read_filter_ne]; simp_all
  · exact Memory.read_insert font m a b v

/-! ### The canonical form -/

theorem Memory.mem_insert {m : Memory} {a : Nat} {v : Byte} {c : Host.Cell} (h : c ∈ Memory.insert m a v) :
    c = (a, v) ∨ c ∈ m := by
  induction m with
  | nil => simpa [Memory.insert] using h
  | cons d m ih =>
    obtain ⟨k, u⟩ := d
    simp only [Memory.insert] at h
    split at h
    · simpa using h
    · split at h
      · simp only [List.mem_cons] at h ⊢; tauto
      · simp only [List.mem_cons] at h ⊢
        rcases h with h | h
        · tauto
        · have := ih h; tauto

theorem Memory.pairwise_insert {m : Memory} (a : Nat) (v : Byte) (h : m.Pairwise (fun c d => c.1 < d.1)) :
    (Memory.insert m a v).Pairwise (fun c d => c.1 < d.1) := by
  induction m with
  | nil => simp [Memory.insert]
  | cons d m ih =>
    obtain ⟨k, u⟩ := d
    rw [List.pairwise_cons] at h
    simp only [Memory.insert]
    split
    · rename_i hak
      refine List.pairwise_cons.2 ⟨fun c hc => ?_, List.pairwise_cons.2 h⟩
      rcases List.mem_cons.1 hc with rfl | hc
      · exact hak
      · exact lt_trans hak (h.1 c hc)
    · split
      · subst_vars
        exact List.pairwise_cons.2 ⟨h.1, h.2⟩
      · refine List.pairwise_cons.2 ⟨fun c hc => ?_, ih h.2⟩
        rcases Memory.mem_insert hc with rfl | hc
        · simp only; omega
        · exact h.1 c hc

/-- Every write inside the address space keeps the canonical form. -/
theorem Memory.write_wf {font : Font} {m : Memory} {a : Nat} (v : Byte) (ha : a < memSize) (h : Memory.WF font m) :
    Memory.WF font (Memory.write font m a v) := by
  rw [Memory.write]
  split
  · exact ⟨h.1.filter _, fun c hc => h.2 c (List.mem_filter.1 hc).1⟩
  · refine ⟨Memory.pairwise_insert a v h.1, fun c hc => ?_⟩
    rcases Memory.mem_insert hc with rfl | hc
    · exact ⟨ha, by assumption⟩
    · exact h.2 c hc

theorem Memory.nil_wf (font : Font) : Memory.WF font [] := by
  constructor
  · exact List.Pairwise.nil
  · simp

/-! ### One byte of the state -/

/-- What a byte reads as after a byte is written, both addresses masked (20_memory.md R51, R52). -/
theorem State.readByte_writeByte_mask (s : State) (a b : Nat) (v : Byte) :
    (s.writeByte a v).readByte b = if maskAddr b = maskAddr a then v else s.readByte b := by
  exact Memory.read_write _ _ _ _ _

theorem State.writeByte_wf {s : State} (a : Nat) (v : Byte) (h : Memory.WF s.cfg.font s.mem) :
    Memory.WF (s.writeByte a v).cfg.font (s.writeByte a v).mem :=
  Memory.write_wf v (maskAddr_lt a) h

theorem State.readByte_congr {s : State} {a b : Nat} (h : a % 4096 = b % 4096) : s.readByte a = s.readByte b := by
  rw [State.readByte, State.readByte, maskAddr_eq_mod, maskAddr_eq_mod, h]

end Sys2Proof.Machine
end

