-- ==== Sys2Proof/Laws/Ops.lean ====
section
/-! SUPPORT. One lemma for each shared operation, saying what it can do: multi-byte stores, register dump and load, the
call stack, the key index and the lowest key. -/

namespace Sys2Proof.Machine

/-! ### Multi-byte stores -/

/-- A multi-byte store changes memory alone, and keeps its canonical form. -/
theorem State.writeBytes_only_memory (s : State) (a : Nat) (bs : List Byte) :
    ∃ m, s.writeBytes a bs = { s with mem := m } ∧
      (Memory.WF s.cfg.font s.mem → Memory.WF s.cfg.font m) := by
  induction bs generalizing s a with
  | nil => exact ⟨s.mem, rfl, id⟩
  | cons b bs ih =>
    obtain ⟨m, hm, hw⟩ := ih (s.writeByte a b) (a + 1)
    exact ⟨m, by rw [State.writeBytes, hm]; rfl, fun h => hw (State.writeByte_wf a b h)⟩

/-- Outside the bytes it stores, a multi-byte store leaves memory as it was. -/
theorem State.readByte_writeBytes_outside (s : State) (a c : Nat) (bs : List Byte)
    (h : ∀ k, k < bs.length → c % 4096 ≠ (a + k) % 4096) : (s.writeBytes a bs).readByte c = s.readByte c := by
  induction bs generalizing s a with
  | nil => rfl
  | cons b bs ih =>
    rw [State.writeBytes, ih (s.writeByte a b) (a + 1) (fun k hk => by
      have := h (k + 1) (by simpa using hk)
      rwa [show a + 1 + k = a + (k + 1) by omega]), State.readByte_writeByte_mask, maskAddr_eq_mod, maskAddr_eq_mod,
      if_neg (by simpa using h 0 (by simp))]

/-- A stored byte reads back, if the store is no longer than the address space. -/
theorem State.readByte_writeBytes_inside (s : State) (a : Nat) (bs : List Byte) (hlen : bs.length ≤ 4096)
    (k : Nat) (hk : k < bs.length) : (s.writeBytes a bs).readByte (a + k) = bs[k] := by
  induction bs generalizing s a k with
  | nil => simp at hk
  | cons b bs ih =>
    rw [State.writeBytes]
    simp only [List.length_cons] at hlen hk
    cases k with
    | zero =>
      rw [State.readByte_writeBytes_outside _ _ _ _ (fun j hj => by omega), State.readByte_writeByte_mask]
      simp
    | succ k =>
      rw [show a + (k + 1) = a + 1 + k by omega, ih (s.writeByte a b) (a + 1) (by omega) k (by omega)]
      simp

/-! ### Register dump and load -/

/-- A register dump changes memory alone, and keeps its canonical form. -/
theorem State.storeV_only_memory (s : State) (base : Nat) (ks : List Nibble) :
    ∃ m, s.storeV base ks = { s with mem := m } ∧
      (Memory.WF s.cfg.font s.mem → Memory.WF s.cfg.font m) := by
  induction ks generalizing s with
  | nil => exact ⟨s.mem, rfl, id⟩
  | cons k ks ih =>
    obtain ⟨m, hm, hw⟩ := ih (s.writeByte (base + k.val) (s.getV k))
    exact ⟨m, by rw [State.storeV, hm]; rfl, fun h => hw (State.writeByte_wf _ _ h)⟩

theorem State.readByte_storeV_outside (s : State) (base c : Nat) (ks : List Nibble)
    (h : ∀ k ∈ ks, c % 4096 ≠ (base + k.val) % 4096) : (s.storeV base ks).readByte c = s.readByte c := by
  induction ks generalizing s with
  | nil => rfl
  | cons k ks ih =>
    rw [State.storeV, ih _ (fun j hj => h j (List.mem_cons_of_mem k hj)), State.readByte_writeByte_mask,
      maskAddr_eq_mod, maskAddr_eq_mod, if_neg (h k List.mem_cons_self)]

/-- Every dumped register reads back from its place. -/
theorem State.readByte_storeV_inside (s : State) (base : Nat) (ks : List Nibble) (j : Nibble) (hj : j ∈ ks) :
    (s.storeV base ks).readByte (base + j.val) = s.getV j := by
  induction ks generalizing s with
  | nil => simp at hj
  | cons k ks ih =>
    rw [State.storeV]
    by_cases hjk : j ∈ ks
    · rw [ih _ hjk]; simp
    · obtain rfl : j = k := by simpa [hjk] using hj
      rw [State.readByte_storeV_outside, State.readByte_writeByte_mask, if_pos rfl]
      intro i hi
      have : i.val ≠ j.val := fun e => hjk (Fin.ext e ▸ hi)
      omega

/-- A register load changes V alone: the listed registers take the bytes at their places, the others stay. -/
theorem State.loadV_only_regs (s : State) (base : Nat) (ks : List Nibble) :
    ∃ v, s.loadV base ks = { s with V := v } ∧
      ∀ j : Nibble, v[j] = if j ∈ ks then s.readByte (base + j.val) else s.getV j := by
  induction ks generalizing s with
  | nil => exact ⟨s.V, rfl, fun j => by simp [State.getV]⟩
  | cons k ks ih =>
    obtain ⟨v, hv, hr⟩ := ih (s.setV k (s.readByte (base + k.val)))
    refine ⟨v, by rw [State.loadV, hv]; rfl, fun j => ?_⟩
    rw [hr j]
    by_cases hjk : j = k
    · subst hjk; simp
    · simp [hjk]

theorem mem_regsUpTo (x k : Nibble) : k ∈ regsUpTo x ↔ k ≤ x := by
  revert x k; decide

/-! ### Call stack -/

/-- A push writes the slot sp alone and counts it; it fails exactly where the array has no such slot. -/
theorem State.push_eq (s : State) (v : Word) :
    (s.sp < s.stack.length ∧ s.push v = some { s with stack := s.stack.set s.sp v, sp := s.sp + 1 }) ∨
    (s.stack.length ≤ s.sp ∧ s.push v = none) := by
  rw [State.push]
  split
  · left; exact ⟨by assumption, rfl⟩
  · right; exact ⟨by omega, rfl⟩

/-- A pop reads slot sp - 1 and changes sp alone; it fails exactly where the array has no such slot. -/
theorem State.pop_eq (s : State) :
    (∃ h : s.sp - 1 < s.stack.length, s.pop = some (s.stack[s.sp - 1], { s with sp := s.sp - 1 })) ∨
    (s.stack.length ≤ s.sp - 1 ∧ s.pop = none) := by
  rw [State.pop]
  by_cases h : s.sp - 1 < s.stack.length
  · left; exact ⟨h, by simp [List.getElem?_eq_getElem h]⟩
  · right; exact ⟨by omega, by simp [List.getElem?_eq_none (Nat.le_of_not_lt h)]⟩

/-! ### Keypad -/

theorem mem_allNibbles (k : Nibble) : k ∈ allNibbles := by
  revert k; decide

theorem allNibbles_sorted : allNibbles.Pairwise (· < ·) := by decide

/-- No lowest key exactly when no key is pressed. -/
theorem State.lowestKey_eq_none (s : State) : s.lowestKey = none ↔ ∀ k, s.keyDown k = false := by
  rw [State.lowestKey, List.find?_eq_none]
  simp [mem_allNibbles]

/-- The lowest key is pressed, and no pressed key has a lower number. -/
theorem State.lowestKey_eq_some (s : State) (k : Nibble) :
    s.lowestKey = some k ↔ s.keyDown k = true ∧ ∀ j, s.keyDown j = true → k ≤ j := by
  rw [State.lowestKey, List.find?_eq_some_iff_append]
  constructor
  · rintro ⟨hk, as, bs, hab, has⟩
    refine ⟨hk, fun j hj => ?_⟩
    have hmem : j ∈ as ++ k :: bs := hab ▸ mem_allNibbles j
    rcases List.mem_append.1 hmem with h | h
    · have := has j h; simp [hj] at this
    · rcases List.mem_cons.1 h with rfl | h
      · exact le_refl _
      · have hp := hab ▸ allNibbles_sorted
        exact le_of_lt ((List.pairwise_cons.1 (List.pairwise_append.1 hp).2.1).1 j h)
  · rintro ⟨hk, hmin⟩
    obtain ⟨as, bs, hab⟩ := List.append_of_mem (mem_allNibbles k)
    refine ⟨hk, as, bs, hab, fun j hj => ?_⟩
    have hp := hab ▸ allNibbles_sorted
    have hlt : j < k := (List.pairwise_append.1 hp).2.2 j hj k List.mem_cons_self
    have : ¬ s.keyDown j = true := fun h => absurd (hmin j h) (not_le.2 hlt)
    simpa using this

/-- The key index under MASK, or in range: the low nibble of V[x]. -/
theorem State.keyIndex_eq_some (s : State) (x : Nibble)
    (h : s.cfg.keyIndexPolicy = .mask ∨ (s.getV x).toNat ≤ 0x0F) :
    s.keyIndex x = some (Fin.ofNat 16 (s.getV x).toNat) := by
  rw [State.keyIndex, if_neg]
  rintro ⟨hp, hx⟩
  rcases h with h | h
  · simp [h] at hp
  · omega

/-- No key index exactly under FAULT with V[x] above 15. -/
theorem State.keyIndex_eq_none (s : State) (x : Nibble) :
    s.keyIndex x = none ↔ s.cfg.keyIndexPolicy = .fault ∧ 0x0F < (s.getV x).toNat := by
  rw [State.keyIndex]
  split <;> simp_all

/-- A key skip moves pc alone, unless the key index fails, which is a fault entry. -/
theorem State.keySkip_eq (s : State) (x : Nibble) (down : Bool) :
    (∃ k, s.keyIndex x = some k ∧ s.keySkip x down = s.skipIf (s.keyDown k == down)) ∨
    (s.keyIndex x = none ∧ s.keySkip x down = s.raiseFault .keyIndexRange) := by
  rw [State.keySkip]
  cases h : s.keyIndex x with
  | none => exact .inr ⟨rfl, rfl⟩
  | some k => exact .inl ⟨k, rfl, rfl⟩

/-- FX0A writes V[x] alone when a key is pressed, and pc alone when none is. -/
theorem State.keyWait_eq (s : State) (x : Nibble) :
    (∃ k, s.lowestKey = some k ∧ s.keyWait x = s.setV x (BitVec.ofNat 8 k.val)) ∨
    (s.lowestKey = none ∧ s.keyWait x = s.setPc s.a0) := by
  rw [State.keyWait]
  cases h : s.lowestKey with
  | none => exact .inr ⟨rfl, rfl⟩
  | some k => exact .inl ⟨k, rfl, rfl⟩

/-- During the execute phase a0 is the pc before the fetch (30_encoding.md R82). -/
theorem State.advance_a0 (s : State) : s.advance.a0 = s.pc := by
  simp

end Sys2Proof.Machine
end

