-- ==== Sys2Proof/Laws/Display.lean ====
section
/-! SUPPORT. What the sprite-draw unit does: its loops flip a list of pixels, none of them twice (45_display.md R141, R143),
so the display changes by XOR and `hit` says whether one of them was lit. -/

namespace Sys2Proof.Machine

/-- A pixel. -/
abbrev Pixel := Fin 64 × Fin 32

theorem Display.pix_flip (d : Display) (x : Fin 64) (y : Fin 32) (px : Fin 64) (py : Fin 32) :
    (d.flip x y).pix px py = (if px = x ∧ py = y then !d.pix x y else d.pix px py) := by
  simp only [Display.flip, Display.pix, Fin.getElem_fin, Vector.getElem_set, Fin.ext_iff]
  by_cases hy : y.val = py.val
  · by_cases hx : x.val = px.val
    · simp [hy, hx]
    · simp [hy, hx, Ne.symm hx]
  · simp [hy, Ne.symm hy, eq_comm]

theorem Display.clear_pix (px : Fin 64) (py : Fin 32) : Display.clear.pix px py = false := by
  simp [Display.clear, Display.pix]

/-- The pixels of row r under the set bits of its byte, for the given columns. -/
def rowPixels (ox oy r : Nat) (b : Byte) (cs : List Nat) : List Pixel :=
  (cs.filter (fun c => spriteBit b c)).map (fun c => (Fin.ofNat 64 (ox + c), Fin.ofNat 32 (oy + r)))

/-- The pixels under the set bits of the given rows of the sprite. -/
def State.spritePixels (s : State) (ox oy : Nat) (rs : List Nat) : List Pixel :=
  rs.flatMap (fun r => rowPixels ox oy r (s.readByte (s.I.toNat + r)) spriteColumns)

/-- Flips a list of pixels one after the other. -/
def Drawing.flipAll (g : Drawing) (ps : List Pixel) : Drawing := ps.foldl (fun g p => g.flip p.1 p.2) g

theorem Drawing.row_eq_flipAll (ox oy r : Nat) (b : Byte) (cs : List Nat) (g : Drawing) :
    Drawing.row ox oy r b cs g = g.flipAll (rowPixels ox oy r b cs) := by
  induction cs generalizing g with
  | nil => rfl
  | cons c cs ih =>
    rw [Drawing.row, ih]
    by_cases h : spriteBit b c = true
    · simp [rowPixels, h, Drawing.flipAll]
    · simp [rowPixels, h, Drawing.flipAll]

/-- The loops of DXYN flip the sprite's pixels in order. -/
theorem State.drawRows_eq_flipAll (s : State) (ox oy : Nat) (rs : List Nat) (g : Drawing) :
    s.drawRows ox oy rs g = g.flipAll (s.spritePixels ox oy rs) := by
  induction rs generalizing g with
  | nil => rfl
  | cons r rs ih =>
    rw [State.drawRows, ih, Drawing.row_eq_flipAll]
    simp [State.spritePixels, Drawing.flipAll]

/-- Flipping pixels that are all different: each listed pixel changes, no other does, and `hit` is set exactly when one of
them was lit. -/
theorem Drawing.flipAll_spec (g : Drawing) (ps : List Pixel) (h : ps.Nodup) :
    (∀ px py, (g.flipAll ps).display.pix px py
      = if (px, py) ∈ ps then !g.display.pix px py else g.display.pix px py) ∧
    ((g.flipAll ps).hit = true ↔ g.hit = true ∨ ∃ p ∈ ps, g.display.pix p.1 p.2 = true) := by
  induction ps generalizing g with
  | nil => simp [Drawing.flipAll]
  | cons p ps ih =>
    rw [List.nodup_cons] at h
    obtain ⟨ih1, ih2⟩ := ih (g.flip p.1 p.2) h.2
    have hstep : g.flipAll (p :: ps) = (g.flip p.1 p.2).flipAll ps := rfl
    have hpix : ∀ px py, (g.flip p.1 p.2).display.pix px py
        = if px = p.1 ∧ py = p.2 then !g.display.pix p.1 p.2 else g.display.pix px py :=
      fun px py => Display.pix_flip _ _ _ _ _
    constructor
    · intro px py
      rw [hstep, ih1, hpix]
      by_cases hp : (px, py) = p
      · subst hp; simp [h.1]
      · have hp' : ¬ (px = p.1 ∧ py = p.2) := fun e => hp (Prod.ext e.1 e.2)
        simp [hp, hp']
    · rw [hstep, ih2]
      have hhit : (g.flip p.1 p.2).hit = (g.hit || g.display.pix p.1 p.2) := rfl
      rw [hhit]
      have hothers : (∃ q ∈ ps, (g.flip p.1 p.2).display.pix q.1 q.2 = true)
          ↔ ∃ q ∈ ps, g.display.pix q.1 q.2 = true := by
        refine exists_congr fun q => and_congr_right fun hq => ?_
        rw [hpix, if_neg]
        rintro ⟨e1, e2⟩
        exact h.1 (Prod.ext e1 e2 ▸ hq)
      rw [hothers]
      simp only [Bool.or_eq_true, List.mem_cons, exists_eq_or_imp]
      tauto

theorem mem_spriteColumns (c : Nat) : c ∈ spriteColumns ↔ c < 8 := by
  simp only [spriteColumns, List.mem_cons, List.not_mem_nil, or_false]
  omega

/-- One draw never touches a pixel twice (45_display.md R143): the columns are distinct mod 64, the rows mod 32. -/
theorem State.spritePixels_nodup (s : State) (ox oy n : Nat) (hn : n < 16) :
    (s.spritePixels ox oy (List.range n)).Nodup := by
  rw [State.spritePixels, List.nodup_flatMap]
  constructor
  · intro r _
    refine List.Nodup.map_on ?_ ((by decide : spriteColumns.Nodup).filter _)
    intro c hc d hd h
    have hc := (mem_spriteColumns c).1 (List.mem_filter.1 hc).1
    have hd := (mem_spriteColumns d).1 (List.mem_filter.1 hd).1
    have := congrArg (fun p : Pixel => p.1.val) h
    simp only [Fin.ofNat] at this
    omega
  · refine List.pairwise_iff_getElem.2 fun i j hi hj hij => ?_
    simp only [List.length_range] at hi hj
    simp only [List.getElem_range, Function.onFun]
    intro p hp hq
    obtain ⟨c, _, rfl⟩ := List.mem_map.1 hp
    obtain ⟨d, _, h⟩ := List.mem_map.1 hq
    have := congrArg (fun p : Pixel => p.2.val) h
    simp only [Fin.ofNat] at this
    omega

theorem State.mem_spritePixels (s : State) (ox oy n : Nat) (px : Fin 64) (py : Fin 32) :
    (px, py) ∈ s.spritePixels ox oy (List.range n) ↔
      ∃ r c : Nat, r < n ∧ c < 8 ∧ (s.readByte (s.I.toNat + r)).getLsbD (7 - c) = true ∧
        px.val = (ox + c) % 64 ∧ py.val = (oy + r) % 32 := by
  simp only [State.spritePixels, rowPixels, List.mem_flatMap, List.mem_range, List.mem_map, List.mem_filter,
    mem_spriteColumns, spriteBit, Prod.mk.injEq, Fin.ext_iff, Fin.ofNat]
  constructor
  · rintro ⟨r, hr, c, ⟨hc, hb⟩, hx, hy⟩
    exact ⟨r, c, hr, hc, hb, hx.symm, hy.symm⟩
  · rintro ⟨r, c, hr, hc, hb, hx, hy⟩
    exact ⟨r, hr, c, ⟨hc, hb⟩, hx.symm, hy.symm⟩

/-- Rows laid end to end: element y * 64 + x is column x of row y (10_state.md R29). -/
theorem rows_getElem? (rows : List (Vector Bool 64)) (y : Nat) (x : Fin 64) :
    (rows.flatMap Vector.toList)[y * 64 + x.val]? = rows[y]?.map (fun row => row[x]) := by
  induction rows generalizing y with
  | nil => simp
  | cons row rows ih =>
    rw [List.flatMap_cons]
    cases y with
    | zero => rw [List.getElem?_append_left (by simp)]; simp
    | succ y =>
      rw [List.getElem?_append_right (by simp; omega), Vector.length_toList,
        show (y + 1) * 64 + x.val - 64 = y * 64 + x.val by omega, ih]
      simp

end Sys2Proof.Machine
end

