-- ==== Sys2Proof/Laws/PerInstr.lean ====
section
/-! SUPPORT. Facts about every instruction as syntax, one lemma for each constructor. Family RowMatch: an instruction's word
is selected by the row of the opcode map that it stands for (30_encoding.md R74). -/

namespace Sys2Proof.Laws.RowMatch

/-- The instruction's own row selects its word. -/
def Statement (i : Instr) : Prop := i.row.Selects (encode i)

theorem or_selects {p m f : Word} (hp : p &&& m = p) (hf : f &&& m = 0) : (p ||| f) &&& m = p := by
  ext j hj
  have h1 := congrArg (fun w : Word => w.getLsbD j) hp
  have h2 := congrArg (fun w : Word => w.getLsbD j) hf
  simp only [BitVec.getLsbD_and] at h1 h2
  simp only [← BitVec.getLsbD_eq_getElem, BitVec.getLsbD_and, BitVec.getLsbD_or]
  cases hm : m.getLsbD j <;> simp_all

theorem or_masked {m f g : Word} (hf : f &&& m = 0) (hg : g &&& m = 0) : (f ||| g) &&& m = 0 := by
  ext j hj
  have h1 := congrArg (fun w : Word => w.getLsbD j) hf
  have h2 := congrArg (fun w : Word => w.getLsbD j) hg
  simp only [BitVec.getLsbD_and] at h1 h2
  simp only [← BitVec.getLsbD_eq_getElem, BitVec.getLsbD_and, BitVec.getLsbD_or]
  cases hm : m.getLsbD j <;> simp_all

theorem addr_masked (nnn : Addr12) : zextAddr nnn &&& 0xF000 = 0 := by
  ext j hj
  simp only [zextAddr, BitVec.getElem_and, BitVec.getElem_setWidth]
  interval_cases j <;> simp

theorem byte_masked (kk : Byte) : zextByte kk &&& 0xF000 = 0 := by
  ext j hj
  simp only [zextByte, BitVec.getElem_and, BitVec.getElem_setWidth]
  interval_cases j <;> simp

theorem nnn_form (p : Word) (hp : p &&& 0xF000 = p) (nnn : Addr12) : (p ||| zextAddr nnn) &&& 0xF000 = p :=
  or_selects hp (addr_masked nnn)

theorem xnn_form (p : Word) (hp : p &&& 0xF000 = p) (x : Nibble) (kk : Byte) :
    (p ||| (placeX x ||| zextByte kk)) &&& 0xF000 = p :=
  or_selects hp (or_masked (by revert x; decide) (byte_masked kk))

theorem xys_form (p : Word) (hp : p &&& 0xF00F = p) (x y : Nibble) : (p ||| (placeX x ||| placeY y)) &&& 0xF00F = p :=
  or_selects hp (or_masked (by revert x; decide) (by revert y; decide))

theorem xs_form (p : Word) (hp : p &&& 0xF0FF = p) (x : Nibble) : (p ||| placeX x) &&& 0xF0FF = p :=
  or_selects hp (by revert x; decide)

theorem drw_form (p : Word) (hp : p &&& 0xF000 = p) (x y n : Nibble) :
    (p ||| (placeX x ||| placeY y ||| placeN n)) &&& 0xF000 = p :=
  or_selects hp (or_masked (or_masked (by revert x; decide) (by revert y; decide)) (by revert n; decide))

theorem cls : Statement .cls := rfl
theorem ret : Statement .ret := rfl
theorem sys (nnn : Addr12) : Statement (.sys nnn) := nnn_form 0x0000 (by decide) nnn
theorem jp (nnn : Addr12) : Statement (.jp nnn) := nnn_form 0x1000 (by decide) nnn
theorem call (nnn : Addr12) : Statement (.call nnn) := nnn_form 0x2000 (by decide) nnn
theorem seImm (x : Nibble) (kk : Byte) : Statement (.seImm x kk) := xnn_form 0x3000 (by decide) x kk
theorem sneImm (x : Nibble) (kk : Byte) : Statement (.sneImm x kk) := xnn_form 0x4000 (by decide) x kk
theorem seReg (x y : Nibble) : Statement (.seReg x y) := xys_form 0x5000 (by decide) x y
theorem ldImm (x : Nibble) (kk : Byte) : Statement (.ldImm x kk) := xnn_form 0x6000 (by decide) x kk
theorem addImm (x : Nibble) (kk : Byte) : Statement (.addImm x kk) := xnn_form 0x7000 (by decide) x kk
theorem ldReg (x y : Nibble) : Statement (.ldReg x y) := xys_form 0x8000 (by decide) x y
theorem orReg (x y : Nibble) : Statement (.orReg x y) := xys_form 0x8001 (by decide) x y
theorem andReg (x y : Nibble) : Statement (.andReg x y) := xys_form 0x8002 (by decide) x y
theorem xorReg (x y : Nibble) : Statement (.xorReg x y) := xys_form 0x8003 (by decide) x y
theorem addReg (x y : Nibble) : Statement (.addReg x y) := xys_form 0x8004 (by decide) x y
theorem subReg (x y : Nibble) : Statement (.subReg x y) := xys_form 0x8005 (by decide) x y
theorem shrReg (x y : Nibble) : Statement (.shrReg x y) := xys_form 0x8006 (by decide) x y
theorem subnReg (x y : Nibble) : Statement (.subnReg x y) := xys_form 0x8007 (by decide) x y
theorem shlReg (x y : Nibble) : Statement (.shlReg x y) := xys_form 0x800E (by decide) x y
theorem sneReg (x y : Nibble) : Statement (.sneReg x y) := xys_form 0x9000 (by decide) x y
theorem ldI (nnn : Addr12) : Statement (.ldI nnn) := nnn_form 0xA000 (by decide) nnn
theorem jpV0 (nnn : Addr12) : Statement (.jpV0 nnn) := nnn_form 0xB000 (by decide) nnn
theorem rnd (x : Nibble) (kk : Byte) : Statement (.rnd x kk) := xnn_form 0xC000 (by decide) x kk
theorem drw (x y n : Nibble) : Statement (.drw x y n) :=
  drw_form 0xD000 (by decide) x y n
theorem skp (x : Nibble) : Statement (.skp x) := xs_form 0xE09E (by decide) x
theorem sknp (x : Nibble) : Statement (.sknp x) := xs_form 0xE0A1 (by decide) x
theorem ldVxDt (x : Nibble) : Statement (.ldVxDt x) := xs_form 0xF007 (by decide) x
theorem ldVxK (x : Nibble) : Statement (.ldVxK x) := xs_form 0xF00A (by decide) x
theorem ldDtVx (x : Nibble) : Statement (.ldDtVx x) := xs_form 0xF015 (by decide) x
theorem ldStVx (x : Nibble) : Statement (.ldStVx x) := xs_form 0xF018 (by decide) x
theorem addIVx (x : Nibble) : Statement (.addIVx x) := xs_form 0xF01E (by decide) x
theorem ldFVx (x : Nibble) : Statement (.ldFVx x) := xs_form 0xF029 (by decide) x
theorem ldBVx (x : Nibble) : Statement (.ldBVx x) := xs_form 0xF033 (by decide) x
theorem storeRegs (x : Nibble) : Statement (.storeRegs x) := xs_form 0xF055 (by decide) x
theorem loadRegs (x : Nibble) : Statement (.loadRegs x) := xs_form 0xF065 (by decide) x

end Sys2Proof.Laws.RowMatch
end

