-- ==== Sys2Proof/Laws/Step.lean ====
section
/-! SUPPORT. What a step can do, said once: the three cases of `step`, and for each instruction which parts of the state
its meaning changes. Every statement about all steps starts from these two. -/

namespace Sys2Proof.Machine

/-- What is left of a meaning when the values it computes are forgotten: the parts it writes and when it faults. -/
def Effect (i : Instr) (s t : State) : Prop :=
  match i with
  | .sys _ => t = s
  | .jp _ | .jpV0 _ | .seImm _ _ | .sneImm _ _ | .seReg _ _ | .sneReg _ _ => ∃ p, t = s.setPc p
  | .call _ =>
    (s.sp = s.cfg.stackDepth ∧ t = s.raiseFault .stackOverflow) ∨
    (s.sp ≠ s.cfg.stackDepth ∧ s.sp < s.stack.length ∧
      ∃ p, t = { s with stack := s.stack.set s.sp s.pc, sp := s.sp + 1, pc := p })
  | .ret =>
    (s.sp = 0 ∧ t = s.raiseFault .stackUnderflow) ∨ (s.sp ≠ 0 ∧ ∃ p, t = { s with sp := s.sp - 1, pc := p })
  | .ldImm x _ | .addImm x _ | .ldReg x _ | .orReg x _ | .andReg x _ | .xorReg x _ | .ldVxDt x =>
    ∃ v, t = s.setV x v
  | .addReg x _ | .subReg x _ | .shrReg x _ | .subnReg x _ | .shlReg x _ => ∃ a b, t = s.setVThenFlag x a b
  | .ldI _ | .addIVx _ | .ldFVx _ => ∃ v, t = s.setI v
  | .rnd x _ => ∃ v, t = (s.setV x v).drawRnd
  | .cls => t = s.setDisplay Display.clear
  | .drw _ _ _ => ∃ d v, t = (s.setDisplay d).setV flagReg v
  | .skp x | .sknp x =>
    (∃ c, t = s.skipIf c) ∨
    (s.cfg.keyIndexPolicy = .fault ∧ 0x0F < (s.getV x).toNat ∧ t = s.raiseFault .keyIndexRange)
  | .ldVxK x => (∃ v, t = s.setV x v) ∨ ((∀ k, s.keyDown k = false) ∧ t = s.setPc s.a0)
  | .ldDtVx _ => ∃ v, t = s.setDT v
  | .ldStVx _ => ∃ v, t = s.setST v
  | .ldBVx _ => ∃ m, (Memory.WF s.cfg.font s.mem → Memory.WF s.cfg.font m) ∧ t = { s with mem := m }
  | .storeRegs _ =>
    ∃ m v, (Memory.WF s.cfg.font s.mem → Memory.WF s.cfg.font m) ∧ (s.cfg.blockTransferIMode = .keep → v = s.I) ∧
      t = { s with mem := m, I := v }
  | .loadRegs x =>
    ∃ (r : Vector Byte 16) (v : Word), (∀ j : Nibble, x < j → r[j] = s.getV j) ∧
      (s.cfg.blockTransferIMode = .keep → v = s.I) ∧ t = { s with V := r, I := v }

theorem skipIf_eq_setPc (s : State) (c : Bool) : ∃ p, s.skipIf c = s.setPc p := by
  cases c
  · exact ⟨s.pc, rfl⟩
  · exact ⟨s.pc + 2, rfl⟩

theorem blockTransferI_keep {s : State} {x : Nibble} (h : s.cfg.blockTransferIMode = .keep) :
    blockTransferI s.cfg.blockTransferIMode s.I x = s.I := by
  rw [h]; rfl

theorem keySkip_effect (s : State) (x : Nibble) (down : Bool) :
    (∃ c, s.keySkip x down = s.skipIf c) ∨
    (s.cfg.keyIndexPolicy = .fault ∧ 0x0F < (s.getV x).toNat ∧ s.keySkip x down = s.raiseFault .keyIndexRange) := by
  rcases s.keySkip_eq x down with ⟨k, _, h⟩ | ⟨hn, h⟩
  · exact .inl ⟨_, h⟩
  · obtain ⟨h1, h2⟩ := (s.keyIndex_eq_none x).1 hn
    exact .inr ⟨h1, h2, h⟩

theorem next_inj {s t : State} (h : (Host.Outcome.next s : Host.Outcome State Fault Refusal) = .next t) : s = t := by
  injection h

/-- Each instruction changes at most what Effect says. -/
theorem exec_effect {i : Instr} {s t : State} (h : exec i s = .next t) : Effect i s t := by
  cases i with
  | call nnn =>
    simp only [exec, execCall] at h
    split at h
    · exact .inl ⟨by assumption, (next_inj h).symm⟩
    · rcases s.push_eq s.pc with ⟨hlt, hp⟩ | ⟨_, hp⟩
      · rw [hp] at h
        exact .inr ⟨by assumption, hlt, _, (next_inj h).symm⟩
      · rw [hp] at h; cases h
  | ret =>
    simp only [exec, execRet] at h
    split at h
    · exact .inl ⟨by assumption, (next_inj h).symm⟩
    · rcases s.pop_eq with ⟨_, hp⟩ | ⟨_, hp⟩
      · rw [hp] at h
        exact .inr ⟨by assumption, _, (next_inj h).symm⟩
      · rw [hp] at h; cases h
  | skp x => exact next_inj h ▸ keySkip_effect s x true
  | sknp x => exact next_inj h ▸ keySkip_effect s x false
  | ldVxK x =>
    rcases s.keyWait_eq x with ⟨k, _, hk⟩ | ⟨hn, hk⟩
    · exact .inl ⟨_, (next_inj h ▸ hk)⟩
    · exact .inr ⟨s.lowestKey_eq_none.1 hn, next_inj h ▸ hk⟩
  | seImm x kk => exact next_inj h ▸ skipIf_eq_setPc s _
  | sneImm x kk => exact next_inj h ▸ skipIf_eq_setPc s _
  | seReg x y => exact next_inj h ▸ skipIf_eq_setPc s _
  | sneReg x y => exact next_inj h ▸ skipIf_eq_setPc s _
  | ldBVx x =>
    obtain ⟨m, hm, hw⟩ := s.writeBytes_only_memory s.I.toNat (decimalDigits (s.getV x))
    exact ⟨m, hw, next_inj h ▸ hm⟩
  | storeRegs x =>
    obtain ⟨m, hm, hw⟩ := s.storeV_only_memory s.I.toNat (regsUpTo x)
    exact ⟨m, _, hw, blockTransferI_keep, by rw [← next_inj h, hm]; rfl⟩
  | loadRegs x =>
    obtain ⟨r, hr, hv⟩ := s.loadV_only_regs s.I.toNat (regsUpTo x)
    refine ⟨r, _, fun j hj => (hv j).trans (if_neg fun hm => ?_), blockTransferI_keep, by rw [← next_inj h, hr]; rfl⟩
    exact absurd ((mem_regsUpTo x j).1 hm) (not_le.2 hj)
  | addReg x y => exact ⟨_, _, (next_inj h).symm⟩
  | subReg x y => exact ⟨_, _, (next_inj h).symm⟩
  | shrReg x y => exact ⟨_, _, (next_inj h).symm⟩
  | subnReg x y => exact ⟨_, _, (next_inj h).symm⟩
  | shlReg x y => exact ⟨_, _, (next_inj h).symm⟩
  | drw x y n => exact ⟨_, _, (next_inj h).symm⟩
  | sys nnn => exact (next_inj h).symm
  | cls => exact (next_inj h).symm
  | jp nnn => exact ⟨_, (next_inj h).symm⟩
  | jpV0 nnn => exact ⟨_, (next_inj h).symm⟩
  | ldImm x kk => exact ⟨_, (next_inj h).symm⟩
  | addImm x kk => exact ⟨_, (next_inj h).symm⟩
  | ldReg x y => exact ⟨_, (next_inj h).symm⟩
  | orReg x y => exact ⟨_, (next_inj h).symm⟩
  | andReg x y => exact ⟨_, (next_inj h).symm⟩
  | xorReg x y => exact ⟨_, (next_inj h).symm⟩
  | ldI nnn => exact ⟨_, (next_inj h).symm⟩
  | rnd x kk => exact ⟨_, (next_inj h).symm⟩
  | ldVxDt x => exact ⟨_, (next_inj h).symm⟩
  | ldDtVx x => exact ⟨_, (next_inj h).symm⟩
  | ldStVx x => exact ⟨_, (next_inj h).symm⟩
  | addIVx x => exact ⟨_, (next_inj h).symm⟩
  | ldFVx x => exact ⟨_, (next_inj h).symm⟩

/-- The three cases of a step: a faulted core stays, an unknown word only advances pc, a decoded instruction runs. -/
theorem step_cases {s t : State} (h : step s = .next t) :
    (s.fault ≠ .none ∧ t = s) ∨
    (s.fault = .none ∧ (∃ e, decode s.fetchWord = .error e) ∧ t = s.advance) ∨
    (s.fault = .none ∧ ∃ i, decode s.fetchWord = .ok i ∧ exec i s.advance = .next t) := by
  rw [step] at h
  split at h
  · rename_i hf
    split at h
    · rename_i i hd
      exact .inr (.inr ⟨hf, i, hd, h⟩)
    · rename_i e hd
      exact .inr (.inl ⟨hf, ⟨e, hd⟩, (next_inj h).symm⟩)
  · exact .inl ⟨by assumption, (next_inj h).symm⟩

/-- An `execute` transaction is a step on the given byte, after which the model's own source of bytes is as it was. -/
theorem executeWith_cases {s u : State} {b : Byte} {r : Response} (h : s.executeWith b = .next (u, r)) :
    r = .executed s.executeEvent ∧
    ∃ t, step { s with rnd := b } = .next t ∧ u = { t with rnd := s.rnd, draws := s.draws } := by
  rw [State.executeWith] at h
  split at h
  · rename_i t ht
    injection h with h
    injection h with h1 h2
    exact ⟨h2.symm, t, ht, h1.symm⟩
  · cases h
  · cases h

end Sys2Proof.Machine
end

