-- ==== Sys2Proof/Tests/Slice0.lean ====
section
/-! SUPPORT. The model's own tests: the well-formedness checks, one word of each form decoded, one-step tests whose results
are the vectors of 95_test_vectors.md (named in each comment), and for each statement with hypotheses a state that meets
them. -/

namespace Sys2Proof.Tests

open Sys2Proof.Machine

/-! ### Well-formedness -/

/-- 0x00E0 is CLS, so no SYS has that address (30_encoding.md R75). -/
theorem test_sys_0E0_is_ill_formed : (Instr.sys 0x0E0).wellFormed = false := by decide

/-- 0x00EE is RET, so no SYS has that address (30_encoding.md R75). -/
theorem test_sys_0EE_is_ill_formed : (Instr.sys 0x0EE).wellFormed = false := by decide

/-- The neighbours of the two are SYS (95_test_vectors.md UK-2). -/
theorem test_sys_0E1_is_well_formed : (Instr.sys 0x0E1).wellFormed = true := by decide

/-! ### Decoding: each form's word written out from 30_encoding.md R73 and R74 -/

theorem test_decode_cls : decode 0b0000000011100000 = .ok .cls := by decide
theorem test_decode_ret : decode 0b0000000011101110 = .ok .ret := by decide
theorem test_decode_sys : decode 0b0000000011100001 = .ok (.sys 0x0E1) := by decide
theorem test_decode_jp : decode 0b0001001000110100 = .ok (.jp 0x234) := by decide
theorem test_decode_call : decode 0b0010001100000000 = .ok (.call 0x300) := by decide
theorem test_decode_se_imm : decode 0b0011001101000010 = .ok (.seImm 3 0x42) := by decide
theorem test_decode_sne_imm : decode 0b0100001101000010 = .ok (.sneImm 3 0x42) := by decide
theorem test_decode_se_reg : decode 0b0101000100100000 = .ok (.seReg 1 2) := by decide
theorem test_decode_ld_imm : decode 0b0110101000101011 = .ok (.ldImm 0xA 0x2B) := by decide
theorem test_decode_add_imm : decode 0b0111000011111111 = .ok (.addImm 0 0xFF) := by decide
theorem test_decode_ld_reg : decode 0b1000000100100000 = .ok (.ldReg 1 2) := by decide
theorem test_decode_or : decode 0b1000000100100001 = .ok (.orReg 1 2) := by decide
theorem test_decode_and : decode 0b1000000100100010 = .ok (.andReg 1 2) := by decide
theorem test_decode_xor : decode 0b1000000100100011 = .ok (.xorReg 1 2) := by decide
theorem test_decode_add_reg : decode 0b1000000100100100 = .ok (.addReg 1 2) := by decide
theorem test_decode_sub : decode 0b1000000100100101 = .ok (.subReg 1 2) := by decide
theorem test_decode_shr : decode 0b1000000100100110 = .ok (.shrReg 1 2) := by decide
theorem test_decode_subn : decode 0b1000000100100111 = .ok (.subnReg 1 2) := by decide
theorem test_decode_shl : decode 0b1000000100101110 = .ok (.shlReg 1 2) := by decide
theorem test_decode_sne_reg : decode 0b1001000100100000 = .ok (.sneReg 1 2) := by decide
theorem test_decode_ld_i : decode 0b1010001011110000 = .ok (.ldI 0x2F0) := by decide
theorem test_decode_jp_v0 : decode 0b1011111111111111 = .ok (.jpV0 0xFFF) := by decide
theorem test_decode_rnd : decode 0b1100001100001111 = .ok (.rnd 3 0x0F) := by decide
theorem test_decode_drw : decode 0b1101000100100101 = .ok (.drw 1 2 5) := by decide
theorem test_decode_skp : decode 0b1110010010011110 = .ok (.skp 4) := by decide
theorem test_decode_sknp : decode 0b1110010010100001 = .ok (.sknp 4) := by decide
theorem test_decode_ld_vx_dt : decode 0b1111001000000111 = .ok (.ldVxDt 2) := by decide
theorem test_decode_ld_vx_k : decode 0b1111001100001010 = .ok (.ldVxK 3) := by decide
theorem test_decode_ld_dt_vx : decode 0b1111001000010101 = .ok (.ldDtVx 2) := by decide
theorem test_decode_ld_st_vx : decode 0b1111001000011000 = .ok (.ldStVx 2) := by decide
theorem test_decode_add_i_vx : decode 0b1111010100011110 = .ok (.addIVx 5) := by decide
theorem test_decode_ld_f_vx : decode 0b1111011100101001 = .ok (.ldFVx 7) := by decide
theorem test_decode_ld_b_vx : decode 0b1111000000110011 = .ok (.ldBVx 0) := by decide
theorem test_decode_store_regs : decode 0b1111001001010101 = .ok (.storeRegs 2) := by decide
theorem test_decode_load_regs : decode 0b1111001001100101 = .ok (.loadRegs 2) := by decide

/-- The other six words of class 8 around the table, and the corners of 5, 9, E and F (95_test_vectors.md AL-26, UK-1,
CF-13, CF-15, KP-10). -/
theorem test_decode_unknown :
    decode 0x8128 = .error (.unknownClass8 0x8128) ∧ decode 0x812F = .error (.unknownClass8 0x812F) ∧
    decode 0x5121 = .error (.unknownClass5 0x5121) ∧ decode 0x912F = .error (.unknownClass9 0x912F) ∧
    decode 0xE49F = .error (.unknownClassE 0xE49F) ∧ decode 0xF0FF = .error (.unknownClassF 0xF0FF) := by decide

/-- The high byte comes first, and a lone byte is no instruction (30_encoding.md R70). -/
theorem test_decode_bytes :
    decodeBytes [0x12, 0x34, 0x56] = .ok (.jp 0x234, [0x56]) ∧ decodeBytes [0x12] = .error .truncated := by decide

theorem test_decode_table_word : decodeTableWord 16 0x8126 = some (.shrReg 1 2) ∧ decodeTableWord 16 0x5AB7 = none := by
  decide

/-! ### One step -/

/-- The start state of the vectors: reset, STACK_DEPTH 16, MASK, the default FONT, and here KEEP and a next random byte
0xB7. -/
def base : State := State.resetWith ⟨16, .keep, .mask, defaultFont⟩ 0xB7 1

/-- The same with BLOCK_TRANSFER_I_MODE = ADVANCE. -/
def baseAdvance : State := State.resetWith ⟨16, .advance, .mask, defaultFont⟩ 0xB7 1

/-- The same with KEY_INDEX_POLICY = FAULT and STACK_DEPTH = 12. -/
def baseStrict : State := State.resetWith ⟨12, .keep, .fault, defaultFont⟩ 0xB7 1

/-- A state with a word at pc. -/
def put (s : State) (w : Nat) : State := s.withFetchWord 16 w

/-- A state with some registers set. -/
def regs (s : State) (l : List (Nibble × Byte)) : State := l.foldl (fun t p => t.setV p.1 p.2) s

/-- One value of the state after one step. -/
def seen {α : Type} (f : State → α) (s : State) : Option α :=
  match step s with
  | .next t => some (f t)
  | _ => none

/-- The registers listed, and pc. -/
def regsPc (xs : List Nibble) (t : State) : List Byte × Word := (xs.map t.getV, t.pc)

/-- The bytes of memory from an address, and I. -/
def bytesI (a n : Nat) (t : State) : List Byte × Word := ((List.range n).map fun k => t.readByte (a + k), t.I)

/-- The lit pixels of the first n columns and rows, as (x, y), row by row. -/
def lit (n : Nat) (t : State) : List (Nat × Nat) :=
  (List.range n).flatMap fun y => (List.range n).filterMap fun x =>
    if t.pix (Fin.ofNat 64 x) (Fin.ofNat 32 y) then some (x, y) else none

/-- DR-1: 00E0 turns every pixel off. -/
theorem test_cls :
    seen (lit 4) (put (base.setDisplay (Display.clear.flip 3 3)) 0x00E0) = some [] := by decide

/-- CF-1. -/
theorem test_jp :
    seen State.pc (put base 0x1234) = some 0x234 := by decide

/-- CF-3. -/
theorem test_call :
    seen (fun t => (t.stack.take 2, t.sp, t.pc)) (put base 0x2300) = some ([0x202, 0], 1, 0x300) := by decide

/-- CF-7: STACK_DEPTH = 12, sp = 12. -/
theorem test_call_overflow :
    seen (fun t => (t.fault, t.sp, t.pc)) (put { baseStrict with pc := 0x300, sp := 12 } 0x2400) = some (.stackOverflow, 12, 0x300) := by decide

/-- CF-4: the popped slot keeps its value. -/
theorem test_ret :
    seen (fun t => (t.stack.take 1, t.sp, t.pc)) (put { base with pc := 0x300, sp := 1, stack := base.stack.set 0 0x202 } 0x00EE) =
      some ([0x202], 0, 0x202) := by decide

/-- CF-5. -/
theorem test_ret_underflow :
    seen (fun t => (t.fault, t.sp, t.pc)) (put base 0x00EE) = some (.stackUnderflow, 0, 0x200) := by decide

/-- CF-8. -/
theorem test_se_imm :
    seen (regsPc [3]) (put (regs base [(3, 0x42)]) 0x3342) = some ([0x42], 0x204) := by decide

/-- CF-19: the further advance of a skip at 0xFFE. -/
theorem test_se_imm_wraps :
    seen (regsPc [0]) (put (regs { base with pc := 0xFFE } []) 0x3000) = some ([0], 0x1002) := by decide

/-- CF-9. -/
theorem test_sne_imm :
    seen (regsPc [3]) (put (regs base [(3, 0x42)]) 0x4342) = some ([0x42], 0x202) := by decide

/-- CF-11. -/
theorem test_se_reg :
    seen (regsPc []) (put (regs base [(1, 7), (2, 7)]) 0x5120) = some ([], 0x204) := by decide

/-- CF-14. -/
theorem test_sne_reg :
    seen (regsPc []) (put (regs base [(1, 7), (2, 8)]) 0x9120) = some ([], 0x204) := by decide

/-- CF-17: the sum is not masked, and V3 is not the offset. -/
theorem test_jp_v0 :
    seen (regsPc []) (put (regs base [(0, 0xFF), (3, 0x77)]) 0xBFFF) = some ([], 0x10FE) := by decide

/-- CF-21: the second byte of the word at 0xFFF comes from 0x000 (the font byte F0). -/
theorem test_fetch_wraps :
    seen State.pc (({ base with pc := 0xFFF } : State).writeByte 0xFFF 0x12) = some 0x2F0 := by decide

/-- CF-18: only pc moves. -/
theorem test_sys :
    seen id (put base 0x0123) = some ((put base 0x0123).setPc 0x202) := by decide

/-- CF-13, UK-1: an unknown word only moves pc. -/
theorem test_unknown :
    seen id (put base 0x5121) = some ((put base 0x5121).setPc 0x202) := by decide

/-- IM-2. -/
theorem test_ld_imm :
    seen (regsPc [0xF]) (put (regs base [(0xF, 0xAA)]) 0x6F07) = some ([7], 0x202) := by decide

/-- IM-3: no carry flag. -/
theorem test_add_imm :
    seen (regsPc [0, 0xF]) (put (regs base [(0, 0xFE)]) 0x7003) = some ([1, 0], 0x202) := by decide

/-- AL-1. -/
theorem test_ld_reg :
    seen (regsPc [1, 2, 0xF]) (put (regs base [(2, 0x55), (0xF, 0xAA)]) 0x8120) = some ([0x55, 0x55, 0xAA], 0x202) := by decide

/-- AL-2. -/
theorem test_or :
    seen (regsPc [1, 0xF]) (put (regs base [(1, 0xF0), (2, 0x0C), (0xF, 0xAA)]) 0x8121) = some ([0xFC, 0xAA], 0x202) := by decide

/-- AL-3. -/
theorem test_and :
    seen (regsPc [1, 0xF]) (put (regs base [(1, 0xF0), (2, 0x3C), (0xF, 0xAA)]) 0x8122) = some ([0x30, 0xAA], 0x202) := by decide

/-- AL-4. -/
theorem test_xor :
    seen (regsPc [1, 0xF]) (put (regs base [(1, 0xF0), (2, 0x3C), (0xF, 0xAA)]) 0x8123) = some ([0xCC, 0xAA], 0x202) := by decide

/-- S1. -/
theorem test_add_reg :
    seen (regsPc [0, 1, 0xF]) (put (regs base [(0, 0x96), (1, 0x9B)]) 0x8014) = some ([0x31, 0x9B, 1], 0x202) := by decide

/-- AL-8: the carry is written last. -/
theorem test_add_reg_to_vf :
    seen (regsPc [0xF]) (put (regs base [(0xF, 0xFF), (0, 1)]) 0x8F04) = some ([1], 0x202) := by decide

/-- S2. -/
theorem test_sub :
    seen (regsPc [0, 0xF]) (put (regs base [(0, 0x0A), (1, 0x0F)]) 0x8015) = some ([0xFB, 0], 0x202) := by decide

/-- AL-12: equal is no borrow. -/
theorem test_sub_equal :
    seen (regsPc [0, 0xF]) (put (regs base [(0, 7), (1, 7)]) 0x8015) = some ([0, 1], 0x202) := by decide

/-- AL-14: the source is Vy. -/
theorem test_shr :
    seen (regsPc [1, 2, 0xF]) (put (regs base [(2, 5), (1, 0xAA)]) 0x8126) = some ([2, 5, 1], 0x202) := by decide

/-- AL-18. -/
theorem test_subn :
    seen (regsPc [0, 0xF]) (put (regs base [(0, 0x0F), (1, 0x0A)]) 0x8017) = some ([0xFB, 0], 0x202) := by decide

/-- AL-20. -/
theorem test_subn_equal :
    seen (regsPc [0, 0xF]) (put (regs base [(0, 0x33)]) 0x8007) = some ([0, 1], 0x202) := by decide

/-- AL-22. -/
theorem test_shl :
    seen (regsPc [1, 2, 0xF]) (put (regs base [(2, 0x81), (1, 0xAA)]) 0x812E) = some ([2, 0x81, 1], 0x202) := by decide

/-- AL-25: the bit shifted out is written last. -/
theorem test_shl_to_vf :
    seen (regsPc [0xF]) (put (regs base [(2, 0x40)]) 0x8F2E) = some ([0], 0x202) := by decide

/-- IX-1. -/
theorem test_ld_i :
    seen State.I (put base 0xA2F0) = some 0x2F0 := by decide

/-- IX-3: past 12 bits, kept, without a flag. -/
theorem test_add_i_vx :
    seen (fun t => (t.I, t.getV 0xF)) (put (regs { base with I := 0xFFF } [(0, 1), (0xF, 0xAA)]) 0xF01E) = some (0x1000, 0xAA) := by decide

/-- IX-4. -/
theorem test_add_i_vx_wraps :
    seen State.I (put (regs { base with I := 0xFFFF } [(0, 1)]) 0xF01E) = some 0 := by decide

/-- IX-7: the low nibble. -/
theorem test_ld_f_vx :
    seen State.I (put (regs base [(7, 0x3A)]) 0xF729) = some 0x32 := by decide

/-- RN-1. -/
theorem test_rnd :
    seen (regsPc [3]) (put (regs base []) 0xC30F) = some ([7], 0x202) := by decide

/-- RN-4, through the execute transaction. -/
theorem test_execute_takes_the_host_byte :
    (match transact (put (regs base [(0xF, 0xAA)]) 0xCF80) (.execute 0xFF) with
      | .next (t, _) => some (t.getV 0xF, t.rnd)
      | _ => none) = some (0x80, 0xB7) := by decide

/-- DR-11. -/
theorem test_drw_collision :
    seen (fun t => (lit 9 t, t.getV 0xF)) (put (({ base with I := 0x300, display := Display.clear.flip 1 0 } : State).writeByte 0x300 0xC0) 0xD001) =
      some ([(0, 0)], 1) := by decide

/-- DR-7: the origin (0x45, 0x21) is (5, 1). -/
theorem test_drw_wraps :
    seen (fun t => (lit 9 t, t.getV 0xF)) (put (regs (({ base with I := 0x300 } : State).writeByte 0x300 0x80) [(0, 0x45), (1, 0x21)]) 0xD011) =
      some ([(5, 1)], 0) := by decide

/-- KP-1. -/
theorem test_skp :
    seen State.pc (put ((regs base [(4, 0x0A)]).setKey 10 true) 0xE49E) = some 0x204 := by decide

/-- KP-3: key 3 under MASK, KEY_INDEX_RANGE under FAULT. -/
theorem test_skp_mask_and_fault :
    seen (fun t => (t.pc, t.fault)) (put ((regs base [(4, 0x13)]).setKey 3 true) 0xE49E) = some (0x204, .none) ∧
    seen (fun t => (t.pc, t.fault)) (put ((regs baseStrict [(4, 0x13)]).setKey 3 true) 0xE49E) = some (0x200, .keyIndexRange) := by decide

/-- KP-2. -/
theorem test_sknp :
    seen State.pc (put (regs base [(4, 0x0A)]) 0xE4A1) = some 0x204 ∧
    seen State.pc (put ((regs base [(4, 0x0A)]).setKey 10 true) 0xE4A1) = some 0x202 := by decide

/-- TM-1. -/
theorem test_ld_vx_dt :
    seen (regsPc [2]) (put (regs { base with DT := 0x3C } []) 0xF207) = some ([0x3C], 0x202) := by decide

/-- KP-5: the lowest pressed key. -/
theorem test_ld_vx_k :
    seen (regsPc [3]) (put (regs ((base.setKey 7 true).setKey 2 true) []) 0xF30A) = some ([2], 0x202) := by decide

/-- KP-4: nothing changes. -/
theorem test_ld_vx_k_waits :
    seen id (put base 0xF30A) = some (put base 0xF30A) := by decide

/-- TM-2. -/
theorem test_ld_dt_vx :
    seen (fun t => (t.DT, t.ST)) (put (regs base [(2, 0x3C)]) 0xF215) = some (0x3C, 0) := by decide

/-- TM-3. -/
theorem test_ld_st_vx :
    seen (fun t => (t.DT, t.ST)) (put (regs base [(2, 5)]) 0xF218) = some (0, 5) := by decide

/-- BT-3: the third digit wraps to 0x000. -/
theorem test_ld_b_vx :
    seen (fun t => (bytesI 0xFFE 2 t, t.readByte 0)) (put (regs { base with I := 0xFFE } [(0, 0x7B)]) 0xF033) =
      some (([1, 2], 0xFFE), 3) := by decide

/-- BT-4, KEEP. -/
theorem test_store_regs :
    seen (bytesI 0x400 4) (put (regs { base with I := 0x400 } [(0, 0x11), (1, 0x22), (2, 0x33), (3, 0x44)]) 0xF255) =
      some ([0x11, 0x22, 0x33, 0], 0x400) := by decide

/-- BT-5, ADVANCE. -/
theorem test_store_regs_advance :
    seen (bytesI 0x500 1) (put (regs { baseAdvance with I := 0x500 } [(0, 0x77)]) 0xF055) = some ([0x77], 0x501) := by decide

/-- BT-7, ADVANCE. -/
theorem test_load_regs :
    seen (fun t => (t.V.toList.take 4, t.I)) (put (regs (({ baseAdvance with I := 0x300 } : State).writeBytes 0x300 [1, 5, 6, 9]) [(3, 8)]) 0xF265) =
      some ([1, 5, 6, 8], 0x303) := by decide

/-- TM-5: also while faulted. -/
theorem test_tick_timers :
    ({ base with DT := 0x10, ST := 1, fault := .stackOverflow } : State).tickTimers =
      { base with DT := 0x0F, ST := 0, fault := .stackOverflow } := by decide

/-- The glyph 7 at 0x023 (20_memory.md R54). -/
theorem test_font :
    bytesI 0x023 5 base = ([0xF0, 0x10, 0x20, 0x40, 0x40], 0) := by decide

/-- The canonical form: a byte at its reset value is not listed. -/
theorem test_writing_the_reset_value_unlists :
    ((base.writeByte 0x300 5).writeByte 0x300 0).mem = [] ∧ ((base.writeByte 0x300 5).writeByte 0x001 7).mem = [(1, 7), (0x300, 5)] := by decide

/-! ### Witnesses: for each statement with hypotheses, states that meet them -/

/-- Each of the three cases: a SHR and a SYS at pc, an unknown word, and a faulted core. -/
theorem witness_StepRunsTheDecodedInstruction :
    let a := put base 0x8126
    let b := put base 0x5121
    let c : State := { base with fault := .stackOverflow }
    (0x8126 : Word) = (a.readByte a.pc.toNat ++ a.readByte (a.pc.toNat + 1) : Word) ∧ a.fault = .none ∧
    decode 0x8126 = .ok (.shrReg 1 2) ∧ exec (.shrReg 1 2) { a with pc := a.pc + 2, rnd := 7 } =
      .next (({ a with pc := a.pc + 2, rnd := 7 } : State).setVThenFlag 1 0 0) ∧ (∀ nnn, Instr.shrReg 1 2 ≠ .sys nnn) ∧
    decode (put base 0x0123).fetchWord = .ok (.sys 0x123) ∧ (0x5121 : Word) = (b.readByte b.pc.toNat ++ b.readByte (b.pc.toNat + 1) : Word) ∧
    b.fault = .none ∧ decode 0x5121 = .error (.unknownClass5 0x5121) ∧ c.fault ≠ .none := ⟨by decide, by decide, by decide, rfl, nofun, by decide, by decide, by decide, by decide, by decide⟩

/-- 5121 at pc. -/
theorem witness_UnknownOpcodeIsANoOp :
    (put base 0x5121).fault = .none ∧ ∀ r ∈ opcodeRows, ¬ r.Selects (put base 0x5121).fetchWord := by decide

/-- A faulted core on which a tick changes the timers. -/
theorem witness_FaultedCoreExecutesNothing :
    let s : State := { base with fault := .stackUnderflow, DT := 3 }
    s.fault ≠ .none ∧ Transaction.tickTimers ≠ .reset ∧ transact s .tickTimers = .next ({ s with DT := 2 }, .done) := ⟨by decide, by decide, rfl⟩

/-- SYS beside CLS, and a form with all its fields at their largest. -/
theorem witness_DecodeOfEncodeIsTheInstruction :
    (Instr.sys 0x0E1).WellFormed ∧ (Instr.drw 0xF 0xF 0xF).WellFormed := by decide

/-- A word that decodes. -/
theorem witness_DecodedWordIsTheEncoding :
    decode 0x812E = .ok (.shlReg 1 2) := by decide

/-- The two rows of 0x00E0, and a word with a row. -/
theorem witness_DecoderFollowsTheOpcodeMap :
    (⟨0x00E0, 0xFFFF⟩ : OpcodeRow) ∈ opcodeRows ∧ (⟨0x0000, 0xF000⟩ : OpcodeRow) ∈ opcodeRows ∧
    (⟨0x00E0, 0xFFFF⟩ : OpcodeRow).Selects 0x00E0 ∧ (⟨0x0000, 0xF000⟩ : OpcodeRow).Selects 0x00E0 ∧
    (⟨0x00E0, 0xFFFF⟩ : OpcodeRow) ≠ ⟨0x0000, 0xF000⟩ ∧ decode 0xF065 = .ok (.loadRegs 0) := by decide

/-- A boundary word of each class. -/
theorem witness_UnknownWordsByClass :
    (fieldC 0x5001 = 0x5 ∧ fieldN 0x5001 ≠ 0) ∧ (fieldC 0x8FFF = 0x8 ∧ fieldN 0x8FFF ∈ ([0x8, 0x9, 0xA, 0xB, 0xC, 0xD, 0xF] : List Nibble)) ∧
    (fieldC 0x9001 = 0x9 ∧ fieldN 0x9001 ≠ 0) ∧ (fieldC 0xE09F = 0xE ∧ fieldKK 0xE09F ∉ ([0x9E, 0xA1] : List Byte)) ∧
    (fieldC 0xF066 = 0xF ∧ fieldKK 0xF066 ∉ ([0x07, 0x0A, 0x15, 0x18, 0x1E, 0x29, 0x33, 0x55, 0x65] : List Byte)) := by decide

/-- sp one below STACK_DEPTH, and sp at it. -/
theorem witness_CallPushesOrOverflows :
    let s : State := { base with sp := 15 }
    let f : State := { base with sp := 16 }
    s.stack.length = s.cfg.stackDepth ∧ s.sp < s.cfg.stackDepth ∧ f.sp = f.cfg.stackDepth := by decide

/-- sp at 1, at STACK_DEPTH, and at 0. -/
theorem witness_ReturnPopsOrUnderflows :
    let a : State := { base with sp := 1 }
    let b : State := { base with sp := 16 }
    a.stack.length = a.cfg.stackDepth ∧ 0 < a.sp ∧ a.sp ≤ a.cfg.stackDepth ∧ b.stack.length = b.cfg.stackDepth ∧
    0 < b.sp ∧ b.sp ≤ b.cfg.stackDepth ∧ base.sp = 0 := by decide

/-- The neighbours of CLS and RET. -/
theorem witness_SysIsANoOp :
    (0x0E1 : Addr12) ≠ 0x0E0 ∧ (0x0EF : Addr12) ≠ 0x0EE ∧ (0x0E1 : Addr12) ≠ 0x0EE ∧ (0x0EF : Addr12) ≠ 0x0E0 := by decide

/-- The result clauses of ADD, SUB, SUBN, SHR and SHL: a destination other than VF, at both sides of the carry and
of the borrow. -/
theorem witness_flag_results :
    (0xE : Nibble) ≠ 0xF ∧ seen (fun t => t.getV 0xF) (put (regs base [(0, 0xFF), (1, 0)]) 0x8014) = some 0 ∧
    seen (fun t => t.getV 0xF) (put (regs base [(0, 0xFF), (1, 1)]) 0x8014) = some 1 ∧
    seen (fun t => t.getV 0xF) (put (regs base [(0, 0), (1, 1)]) 0x8015) = some 0 ∧
    seen (fun t => t.getV 0xF) (put (regs base [(0, 1), (1, 0)]) 0x8017) = some 0 := by decide

/-- C3FF at pc. -/
theorem witness_RandomByteIsMasked :
    (put base 0xC3FF).fault = .none ∧ decode (put base 0xC3FF).fetchWord = .ok (.rnd 3 0xFF) := by decide

/-- A word that is no RND. -/
theorem witness_OnlyRandomSeesTheRandomByte :
    ∀ x kk, decode (put base 0x8126).fetchWord ≠ .ok (.rnd x kk) := by
  have h : decode (put base 0x8126).fetchWord = .ok (.shrReg 1 2) := by decide
  intro x kk e
  rw [h] at e
  cases e

/-- A 1-row sprite of one pixel at (0, 0), where the pixel is dark. -/
def oneDot : State := ({ base with I := 0x300 } : State).writeByte 0x300 0x80

/-- The same where the pixel is lit. -/
def oneDotLit : State := { oneDot with display := Display.clear.flip 0 0 }

/-- What DXYN leaves, for the witnesses of two draws. -/
def drawn (s : State) : State :=
  match exec (.drw 0 1 1) s with
  | .next t => t
  | _ => s

/-- The pixel under the sprite, lit in one state, and a pixel not under it. -/
theorem witness_DrawXorsTheSprite :
    oneDot.UnderSprite 0 1 1 0 0 ∧ oneDotLit.UnderSprite 0 1 1 0 0 ∧ oneDotLit.pix 0 0 = true ∧
    ¬ oneDot.UnderSprite 0 1 1 0 1 ∧ ¬ ∃ px py, oneDot.UnderSprite 0 1 1 px py ∧ oneDot.pix px py = true := by
  refine ⟨⟨0, 0, by decide⟩, ⟨0, 0, by decide⟩, by decide, ?_, ?_⟩
  · rintro ⟨r, c, hr, _, _, _, h⟩
    have hr0 : r = 0 := Nat.lt_one_iff.1 hr
    subst hr0
    exact absurd h (by decide)
  · rintro ⟨px, py, _, h⟩
    have hd : oneDot.pix px py = (Display.clear[py])[px] := rfl
    rw [hd] at h
    simp [Display.clear] at h

/-- With n = 0 no pixel is under the sprite, so the flag clause for no collision is met. -/
theorem witness_DrawXorsTheSprite_no_rows :
    ¬ ∃ px py, oneDotLit.UnderSprite 0 1 0 px py ∧ oneDotLit.pix px py = true := by
  rintro ⟨px, py, ⟨r, c, hr, _⟩, _⟩
  exact absurd hr (Nat.not_lt_zero r)

/-- Two draws one after the other. -/
theorem witness_DrawingTwiceRestoresTheDisplay :
    let t := drawn oneDot
    exec (.drw 0 1 1) oneDot = .next t ∧ exec (.drw 0 1 1) t = .next (drawn t) ∧ t.I = oneDot.I ∧
    (∀ r < (1 : Nibble).val, t.readByte (oneDot.I.toNat + r) = oneDot.readByte (oneDot.I.toNat + r)) ∧ t.getV 0 = oneDot.getV 0 ∧ t.getV 1 = oneDot.getV 1 ∧
    (∀ px py, t.pix px py = t.pix px py) := ⟨rfl, rfl, rfl, fun _ _ => rfl, by decide, by decide, fun _ _ => rfl⟩

/-- A second draw after a byte outside the sprite has changed. -/
theorem witness_DrawingTwiceRestoresTheDisplay_other_memory :
    let t := drawn oneDot
    let u := t.writeByte 0x301 0xFF
    exec (.drw 0 1 1) u = .next (drawn u) ∧ u.I = oneDot.I ∧ u.readByte 0x301 ≠ oneDot.readByte 0x301 ∧
    (∀ r < (1 : Nibble).val, u.readByte (oneDot.I.toNat + r) = oneDot.readByte (oneDot.I.toNat + r)) ∧
    u.getV 0 = oneDot.getV 0 ∧ u.getV 1 = oneDot.getV 1 ∧ (∀ px py, u.pix px py = t.pix px py) := ⟨rfl, rfl, by decide, by decide, by decide, by decide, fun _ _ => rfl⟩

/-- The first coordinates outside. -/
theorem witness_HostReadsTheDisplay :
    ¬ ((64 : Nat) < 64 ∧ (0 : Nat) < 32) ∧ ¬ ((63 : Nat) < 64 ∧ (32 : Nat) < 32) := by decide

/-- MASK with an index above 15, and FAULT with the index 15. -/
theorem witness_KeySkipsTestTheKey :
    ((3 : Nibble).val = ((regs base [(4, 0x13)]).getV 4).toNat % 16 ∧ (regs base [(4, 0x13)]).cfg.keyIndexPolicy = .mask) ∧
    ((15 : Nibble).val = ((regs baseStrict [(4, 0x0F)]).getV 4).toNat % 16 ∧ ((regs baseStrict [(4, 0x0F)]).getV 4).toNat ≤ 0x0F) := by decide

/-- FAULT with the index 16. -/
theorem witness_KeyIndexAbove15FaultsUnderFaultPolicy :
    (regs baseStrict [(4, 0x10)]).cfg.keyIndexPolicy = .fault ∧ ((regs baseStrict [(4, 0x10)]).getV 4).toNat > 0x0F := by decide

/-- Keys 2 and 7 pressed; key 15 alone. -/
theorem witness_KeyWaitTakesTheLowestKey :
    let s := (base.setKey 7 true).setKey 2 true
    let l := base.setKey 15 true
    s.keyDown 2 = true ∧ (∀ j : Nibble, s.keyDown j = true → 2 ≤ j) ∧ l.keyDown 15 = true ∧ (∀ j : Nibble, l.keyDown j = true → 15 ≤ j) := by decide

/-- F30A at pc, no key pressed. -/
theorem witness_KeyWaitWithoutAKeyChangesNothing :
    (put base 0xF30A).fault = .none ∧ decode (put base 0xF30A).fetchWord = .ok (.ldVxK 3) ∧ ∀ k : Nibble, (put base 0xF30A).keyDown k = false := by decide

/-- The word at 0xFFF: its own address, its second address 0x000, and neither. -/
theorem witness_FetchSeesEveryWrite :
    let s : State := { base with pc := 0xFFF }
    0xFFF % 4096 = s.pc.toNat % 4096 ∧ 0x000 % 4096 = (s.pc.toNat + 1) % 4096 ∧
    0xFFE % 4096 ≠ s.pc.toNat % 4096 ∧ 0xFFE % 4096 ≠ (s.pc.toNat + 1) % 4096 := by decide

/-- An address just past the three digits. -/
theorem witness_DecimalStoreWritesThreeDigits :
    ∀ k, k < 3 → (0x303 : Nat) % 4096 ≠ (({ base with I := 0x300 } : State).I.toNat + k) % 4096 := by decide

/-- An address just past the stored bytes, the last stored register, and both modes. -/
theorem witness_RegisterDumpStoresV0ToVx :
    (∀ k : Nibble, k ≤ 2 → (0x303 : Nat) % 4096 ≠ (({ base with I := 0x300 } : State).I.toNat + k.val) % 4096) ∧ (2 : Nibble) ≤ 2 ∧
    base.cfg.blockTransferIMode = .keep ∧ baseAdvance.cfg.blockTransferIMode = .advance := by decide

/-- The last loaded register, the first that stays, and both modes. -/
theorem witness_RegisterLoadFillsV0ToVx :
    (2 : Nibble) ≤ 2 ∧ (2 : Nibble) < 3 ∧ base.cfg.blockTransferIMode = .keep ∧ baseAdvance.cfg.blockTransferIMode = .advance := by decide

/-- An ADD at pc 0xFFFE, from where pc wraps. -/
theorem witness_OtherInstructionsAdvancePcByTwo :
    let s := put { base with pc := 0xFFFE } 0x8014
    s.fault = .none ∧ decode s.fetchWord = .ok (.addReg 0 1) ∧ seen State.pc s = some 0 := by decide

/-- The three faults. -/
theorem witness_FaultEntryIsPrecise :
    seen State.fault (put { base with sp := 16 } 0x2300) = some .stackOverflow ∧ seen State.fault (put base 0x00EE) = some .stackUnderflow ∧
    seen State.fault (put (regs baseStrict [(4, 0x10)]) 0xE4A1) = some .keyIndexRange := by decide

/-- A CLS and a DRW that change the display, and a reset that does. -/
theorem witness_OnlyDrawingWritesTheDisplay :
    seen (fun t => decide (t.display = (put oneDotLit 0x00E0).display)) (put oneDotLit 0x00E0) = some false ∧
    seen (fun t => decide (t.display = (put oneDot 0xD011).display)) (put oneDot 0xD011) = some false ∧
    oneDotLit.hostReset.display ≠ oneDotLit.display := by decide

/-- A set_key that changes the keypad, and a reset that does. -/
theorem witness_OnlyTheHostWritesTheKeypad :
    (base.hostSetKey 15 true).1.keys ≠ base.keys ∧ (base.setKey 15 true).hostReset.keys ≠ (base.setKey 15 true).keys := by decide

/-- Each way of changing a timer. -/
theorem witness_OnlyTimerInstructionsAndTheHostWriteTimers :
    seen State.DT (put (regs base [(2, 1)]) 0xF215) = some 1 ∧ seen State.ST (put (regs base [(2, 1)]) 0xF218) = some 1 ∧
    ({ base with DT := 1, ST := 1 } : State).tickTimers.DT = 0 ∧ ({ base with DT := 1, ST := 1 } : State).tickTimers.ST = 0 ∧
    ({ base with DT := 1, ST := 1 } : State).hostReset.DT = 0 := by decide

/-- A CALL that changes a slot and sp, and a RET that changes sp. -/
theorem witness_OnlyCallAndReturnWriteTheStack :
    seen (fun t => decide (t.stack = base.stack)) (put base 0x2300) = some false ∧ seen State.sp (put base 0x2300) = some 1 ∧
    seen State.sp (put { base with sp := 1 } 0x00EE) = some 0 := by decide

/-- Each of the five. -/
theorem witness_OnlyIndexInstructionsWriteI :
    seen State.I (put base 0xA001) = some 1 ∧ seen State.I (put (regs base [(0, 1)]) 0xF01E) = some 1 ∧
    seen State.I (put (regs base [(0, 1)]) 0xF029) = some 5 ∧ seen State.I (put baseAdvance 0xF055) = some 1 ∧
    seen State.I (put baseAdvance 0xF065) = some 1 := by decide

/-- FX33, FX55, load_program and reset, each changing a byte. -/
theorem witness_OnlyStoresWriteMemory :
    seen (fun t => t.readByte 0x302) (put (regs { base with I := 0x300 } [(0, 9)]) 0xF033) = some 9 ∧
    seen (fun t => t.readByte 0x300) (put (regs { base with I := 0x300 } [(0, 9)]) 0xF055) = some 9 ∧
    (base.loadProgram [0xAA]).1.readByte 0x200 = 0xAA ∧ (base.writeByte 0x300 9).hostReset.readByte 0x300 = 0 := by decide

/-- A flag, and VF as the destination. -/
theorem witness_VFChangesOnlyByFlagsOrAsDestination :
    seen (fun t => t.getV 0xF) (put (regs base [(0, 0x80)]) 0x8004) = some 1 ∧ seen (fun t => t.getV 0xF) (put base 0x6F07) = some 7 ∧
    seen (fun t => t.getV 0xF) (put oneDotLit 0xD011) = some 1 := by decide

/-- 1200 at 0x200. -/
theorem witness_JumpToSelfEndsARun :
    (put base 0x1200).EndOfRun 0x200 := ⟨by decide, by decide, by decide⟩

/-- The start state of the vectors satisfies the invariant. -/
theorem base_inv : base.Inv :=
  ⟨by decide, by decide, by decide, by decide, by decide, by decide, by decide⟩

/-- A CALL from a state with the invariant. -/
theorem witness_StepKeepsTheInvariant :
    (put base 0x2300).Inv ∧ seen State.sp (put base 0x2300) = some 1 := ⟨⟨by decide, by decide, by decide, by decide, by decide, by decide, by decide⟩, by decide⟩

theorem witness_StepAlwaysAnswersNext : base.Inv := base_inv

theorem witness_TransactionSequencesKeepTheInvariant : base.Inv ∧ transact base .reset = .next (base, .done) := ⟨base_inv, rfl⟩

/-- The longest image and the first that is too long; the last byte of the image and the last before it. -/
theorem witness_LoadProgramWritesTheImageOrRejects :
    (List.replicate 3584 (1 : Byte)).length ≤ 4096 - 0x200 ∧ (List.replicate 3585 (1 : Byte)).length > 4096 - 0x200 ∧
    3583 < (List.replicate 3584 (1 : Byte)).length ∧ (0x1FF : Nat) < 4096 ∧ (0x1FF : Nat) < 0x200 := by
  rw [List.length_replicate, List.length_replicate]
  decide

/-- A shorter image: its last byte, and the first byte above it, which is kept. -/
theorem witness_LoadProgramWritesTheImageOrRejects_above :
    ([1, 2, 3] : List Byte).length ≤ 4096 - 0x200 ∧ 2 < ([1, 2, 3] : List Byte).length ∧ (0x203 : Nat) < 4096 ∧
    0x200 + ([1, 2, 3] : List Byte).length ≤ 0x203 ∧
    ((base.writeByte 0x203 9).loadProgram [1, 2, 3]).1.readByte 0x202 = 3 ∧
    ((base.writeByte 0x203 9).loadProgram [1, 2, 3]).1.readByte 0x203 = 9 := by decide

/-- Another key than the one set, and the first key number outside. -/
theorem witness_SetKeySetsOneKey :
    (14 : Nibble) ≠ 15 ∧ 16 ≤ (16 : Nat) := by decide

/-- A write seen at an address one turn of the memory higher, and not at the next. -/
theorem witness_MemoryOperations :
    (base.writeByte 0x300 9).readByte 0x1300 = 9 ∧ (base.writeByte 0x300 9).readByte 0x301 = 0 := by decide

end Sys2Proof.Tests
end

section
/-! The jump and the skips on a condition (40_control_flow.md, R100 and R103 to R106): the words that decode to them, the
frame of an update of pc, and what a skip does. -/

namespace Sys2Proof.Machine

/-! ### Frames of the updates of pc -/

/-- Writing pc leaves every other part of the state alone. -/
theorem State.onlyChanges_setPc (s : State) (v : Word) : s.OnlyChanges (s.setPc v) [.pc] := by
  intro p hp
  cases p with
  | pc => exact absurd (List.mem_singleton.2 rfl) hp
  | _ => simp [State.SamePart]

/-- A skip, taken or not, leaves every part of the state but pc alone. -/
theorem State.onlyChanges_skipIf (s : State) (c : Bool) : s.OnlyChanges (s.skipIf c) [.pc] := by
  obtain ⟨v, hv⟩ := skipIf_eq_setPc s c
  exact hv ▸ s.onlyChanges_setPc v

/-! ### Words of the jump and the skips -/

theorem decode_addrWord_jp (nnn : Addr12) : decode (addrWord 0x1 nnn.toNat) = .ok (.jp nnn) := by
  obtain ⟨hclass, hnnn⟩ := addrWord_fields (c := 0x1) (by decide) nnn
  simp [decode, hclass, hnnn]

/-- The low byte of a word given by its two high nibbles and a byte. -/
theorem fieldKK_byteWord {c : Nat} (hc : c < 16) (x : Nibble) (kk : Byte) :
    fieldKK (byteWord c x.val kk.toNat) = kk := by
  obtain ⟨_, _, hkk⟩ := byteWord_fields hc x kk.isLt
  rw [hkk, BitVec.ofNat_toNat, BitVec.setWidth_eq]

theorem decode_byteWord_seImm (x : Nibble) (kk : Byte) :
    decode (byteWord 0x3 x.val kk.toNat) = .ok (.seImm x kk) := by
  obtain ⟨hclass, hx, _⟩ := byteWord_fields (c := 0x3) (by decide) x kk.isLt
  simp [decode, hclass, hx, fieldKK_byteWord]

theorem decode_byteWord_sneImm (x : Nibble) (kk : Byte) :
    decode (byteWord 0x4 x.val kk.toNat) = .ok (.sneImm x kk) := by
  obtain ⟨hclass, hx, _⟩ := byteWord_fields (c := 0x4) (by decide) x kk.isLt
  simp [decode, hclass, hx, fieldKK_byteWord]

theorem decode_nibblesWord_seReg (x y : Nibble) :
    decode (nibblesWord 0x5 x.val y.val 0) = .ok (.seReg x y) := by
  obtain ⟨hclass, hx, hy, hn⟩ := nibblesWord_fields (c := 0x5) (n := 0) (by decide) x y (by decide)
  simp [decode, hclass, hx, hy, Fin.ext_iff, hn]

theorem decode_nibblesWord_sneReg (x y : Nibble) :
    decode (nibblesWord 0x9 x.val y.val 0) = .ok (.sneReg x y) := by
  obtain ⟨hclass, hx, hy, hn⟩ := nibblesWord_fields (c := 0x9) (n := 0) (by decide) x y (by decide)
  simp [decode, hclass, hx, hy, Fin.ext_iff, hn]

/-! ### Meanings of the jump and the skips -/

theorem exec_jp (nnn : Addr12) (s : State) : exec (.jp nnn) s = .next (s.setPc (zextAddr nnn)) := rfl

theorem exec_seImm (x : Nibble) (kk : Byte) (s : State) :
    exec (.seImm x kk) s = .next (s.skipIf (s.getV x == kk)) := rfl

theorem exec_sneImm (x : Nibble) (kk : Byte) (s : State) :
    exec (.sneImm x kk) s = .next (s.skipIf (s.getV x != kk)) := rfl

theorem exec_seReg (x y : Nibble) (s : State) :
    exec (.seReg x y) s = .next (s.skipIf (s.getV x == s.getV y)) := rfl

theorem exec_sneReg (x y : Nibble) (s : State) :
    exec (.sneReg x y) s = .next (s.skipIf (s.getV x != s.getV y)) := rfl

/-- The skip convention of 40_control_flow.md, for every instruction whose meaning is a skip on a test `c` of the
condition `P`. -/
theorem exec_skip_spec {i : Instr} {s : State} {c : Bool} {P : Prop} [Decidable P]
    (hexec : exec i s = .next (s.skipIf c)) (hc : c = true ↔ P) :
    ∃ t, exec i s = .next t ∧ t.pc = (if P then s.pc + 2 else s.pc) ∧ s.OnlyChanges t [.pc] := by
  refine ⟨s.skipIf c, hexec, ?_, s.onlyChanges_skipIf c⟩
  rw [State.skipIf_pc]
  exact if_congr hc rfl rfl

/-! ### The statements -/

/-- Settles O11: JP writes the zero-extended nnn to pc, and an update of pc changes nothing else. -/
theorem jumpSetsPc : Obligations.JumpSetsPc := by
  intro s nnn
  exact ⟨decode_addrWord_jp nnn, s.setPc (zextAddr nnn), exec_jp nnn s, zextAddr_toNat nnn, s.onlyChanges_setPc _⟩

/-- Settles O15: both forms are skips, on V[x] = kk and on its negation. -/
theorem skipsOnImmediate : Obligations.SkipsOnImmediate := by
  intro s x kk
  exact ⟨decode_byteWord_seImm x kk, decode_byteWord_sneImm x kk,
    exec_skip_spec (exec_seImm x kk s) beq_iff_eq, exec_skip_spec (exec_sneImm x kk s) bne_iff_ne⟩

/-- Settles O16: both forms are skips, on V[x] = V[y] and on its negation. -/
theorem skipsOnRegister : Obligations.SkipsOnRegister := by
  intro s x y
  exact ⟨decode_nibblesWord_seReg x y, decode_nibblesWord_sneReg x y,
    exec_skip_spec (exec_seReg x y s) beq_iff_eq, exec_skip_spec (exec_sneReg x y s) bne_iff_ne⟩

end Sys2Proof.Machine
end

section
/-! The immediate load and add (41_immediate.md, R110 and R111): the words that decode to them, the frame of a register
write, and what an instruction does whose meaning is one register write. -/

namespace Sys2Proof.Machine

/-! ### Frames of a register write -/

/-- Writing a V register leaves every part of the state but the registers alone. -/
theorem State.onlyChanges_setV (s : State) (x : Nibble) (v : Byte) : s.OnlyChanges (s.setV x v) [.regs] := by
  intro p hp
  cases p with
  | regs => exact absurd (List.mem_singleton.2 rfl) hp
  | _ => simp [State.SamePart]

/-- Writing a V register leaves the other V registers alone. -/
theorem State.regsSameExcept_setV (s : State) (x : Nibble) (v : Byte) : s.RegsSameExcept (s.setV x v) [x] := by
  intro y hy
  rw [State.setV_getV, if_neg (List.mem_singleton.not.1 hy)]

theorem State.getV_setV_same (s : State) (x : Nibble) (v : Byte) : (s.setV x v).getV x = v := by
  rw [State.setV_getV, if_pos rfl]

/-! ### Words of the immediate load and add -/

theorem decode_byteWord_ldImm (x : Nibble) (kk : Byte) :
    decode (byteWord 0x6 x.val kk.toNat) = .ok (.ldImm x kk) := by
  obtain ⟨hclass, hx, _⟩ := byteWord_fields (c := 0x6) (by decide) x kk.isLt
  simp [decode, hclass, hx, fieldKK_byteWord]

theorem decode_byteWord_addImm (x : Nibble) (kk : Byte) :
    decode (byteWord 0x7 x.val kk.toNat) = .ok (.addImm x kk) := by
  obtain ⟨hclass, hx, _⟩ := byteWord_fields (c := 0x7) (by decide) x kk.isLt
  simp [decode, hclass, hx, fieldKK_byteWord]

/-! ### Meanings of the immediate load and add -/

theorem exec_ldImm (x : Nibble) (kk : Byte) (s : State) : exec (.ldImm x kk) s = .next (s.setV x kk) := rfl

theorem exec_addImm (x : Nibble) (kk : Byte) (s : State) :
    exec (.addImm x kk) s = .next (s.setV x (s.getV x + kk)) := rfl

/-- An instruction whose meaning is one write to V[x]: what the write establishes of V[x] holds of the next state, and
nothing else changes. With x = F, VF takes the value as an ordinary write. -/
theorem exec_setV_spec {i : Instr} {s : State} {x : Nibble} {v : Byte} {P : Byte → Prop}
    (hexec : exec i s = .next (s.setV x v)) (hv : P v) :
    ∃ t, exec i s = .next t ∧ P (t.getV x) ∧ s.RegsSameExcept t [x] ∧ s.OnlyChanges t [.regs] :=
  ⟨s.setV x v, hexec, (s.getV_setV_same x v).symm ▸ hv, s.regsSameExcept_setV x v, s.onlyChanges_setV x v⟩

/-! ### The statements -/

/-- Settles O18: LD Vx, kk is one write of kk to V[x]. -/
theorem loadImmediate : Obligations.LoadImmediate := by
  intro s x kk
  exact ⟨decode_byteWord_ldImm x kk, exec_setV_spec (P := (· = kk)) (exec_ldImm x kk s) rfl⟩

/-- Settles O19: ADD Vx, kk is one write of the byte sum to V[x], and byte addition is addition modulo 256. -/
theorem addImmediateWrapsWithoutFlag : Obligations.AddImmediateWrapsWithoutFlag := by
  intro s x kk
  exact ⟨decode_byteWord_addImm x kk,
    exec_setV_spec (P := fun v => v.toNat = ((s.getV x).toNat + kk.toNat) % 256) (exec_addImm x kk s)
      (BitVec.toNat_add (s.getV x) kk)⟩

end Sys2Proof.Machine
end

section
/-! The register copy, addition, subtraction and shifts of class 8 (42_alu.md, R121, R125 to R127 and R129): the words
that decode to them, the two writes of a result and then of a flag, the flags as numbers, and what an instruction does
whose meaning is those two writes. -/

namespace Sys2Proof.Machine

/-! ### A result, then a flag -/

/-- The result stands in V[x], unless x = F, where the flag is written over it. -/
theorem State.getV_setVThenFlag_result (s : State) {x : Nibble} (hx : x ≠ 0xF) (v f : Byte) :
    (s.setVThenFlag x v f).getV x = v := by
  rw [State.setVThenFlag_getV, flagReg, if_neg hx, if_pos rfl]

/-- The flag stands in VF, also when x = F: it is written last. -/
theorem State.getV_setVThenFlag_flag (s : State) (x : Nibble) (v f : Byte) :
    (s.setVThenFlag x v f).getV 0xF = f := by
  rw [State.setVThenFlag_getV, flagReg, if_pos rfl]

/-- Writing a result and a flag leaves the V registers other than V[x] and VF alone. -/
theorem State.regsSameExcept_setVThenFlag (s : State) (x : Nibble) (v f : Byte) :
    s.RegsSameExcept (s.setVThenFlag x v f) [x, 0xF] := by
  intro z hz
  obtain ⟨hzx, hzF⟩ : z ≠ x ∧ z ≠ 0xF := by simpa using hz
  rw [State.setVThenFlag_getV, flagReg, if_neg hzF, if_neg hzx]

/-- Writing a result and a flag leaves every part of the state but the registers alone. -/
theorem State.onlyChanges_setVThenFlag (s : State) (x : Nibble) (v f : Byte) :
    s.OnlyChanges (s.setVThenFlag x v f) [.regs] := by
  intro p hp
  cases p with
  | regs => exact absurd (List.mem_singleton.2 rfl) hp
  | _ => simp [State.SamePart]

/-! ### The flags as numbers -/

theorem carryFlag_eq (a b : Byte) : carryFlag a b = if a.toNat + b.toNat > 255 then 1 else 0 := by
  simp only [carryFlag, byteOfBool, decide_eq_true_eq]

theorem notBorrowFlag_eq (a b : Byte) : notBorrowFlag a b = if a.toNat ≥ b.toNat then 1 else 0 := by
  simp only [notBorrowFlag, byteOfBool, decide_eq_true_eq]

theorem shiftedOutRight_toNat (v : Byte) : (shiftedOutRight v).toNat = v.toNat % 2 := by
  simp [shiftedOutRight, Nat.and_one_is_mod]

/-- The quotient of a byte by 128 is one bit, so the mask of the model's flag changes nothing. -/
theorem shiftedOutLeft_toNat (v : Byte) : (shiftedOutLeft v).toNat = v.toNat / 128 := by
  have hbit : v.toNat / 128 < 2 := by have := v.isLt; omega
  simp [shiftedOutLeft, Nat.and_one_is_mod, Nat.shiftRight_eq_div_pow, Nat.mod_eq_of_lt hbit]

/-! ### Results as numbers -/

/-- Byte subtraction is integer subtraction modulo 256. -/
theorem byte_sub_toNat_emod (a b : Byte) : ((a - b).toNat : Int) = (a.toNat - b.toNat : Int) % 256 := by
  have ha := a.isLt
  have hb := b.isLt
  rw [BitVec.toNat_sub]
  omega

theorem byte_shiftRight_one_toNat (v : Byte) : (v >>> 1).toNat = v.toNat / 2 := by
  rw [BitVec.toNat_ushiftRight, Nat.shiftRight_eq_div_pow, Nat.pow_one]

theorem byte_shiftLeft_one_toNat (v : Byte) : (v <<< 1).toNat = v.toNat * 2 % 256 := by
  rw [BitVec.toNat_shiftLeft, Nat.shiftLeft_eq, Nat.pow_one]

/-! ### Words of the register copy, addition, subtraction and shifts -/

theorem decode_nibblesWord_ldReg (x y : Nibble) :
    decode (nibblesWord 0x8 x.val y.val 0x0) = .ok (.ldReg x y) := by
  obtain ⟨hclass, hx, hy, hn⟩ := nibblesWord_fields (c := 0x8) (n := 0x0) (by decide) x y (by decide)
  simp [decode, decodeClass8, hclass, hx, hy, hn]

theorem decode_nibblesWord_addReg (x y : Nibble) :
    decode (nibblesWord 0x8 x.val y.val 0x4) = .ok (.addReg x y) := by
  obtain ⟨hclass, hx, hy, hn⟩ := nibblesWord_fields (c := 0x8) (n := 0x4) (by decide) x y (by decide)
  simp [decode, decodeClass8, hclass, hx, hy, hn]

theorem decode_nibblesWord_subReg (x y : Nibble) :
    decode (nibblesWord 0x8 x.val y.val 0x5) = .ok (.subReg x y) := by
  obtain ⟨hclass, hx, hy, hn⟩ := nibblesWord_fields (c := 0x8) (n := 0x5) (by decide) x y (by decide)
  simp [decode, decodeClass8, hclass, hx, hy, hn]

theorem decode_nibblesWord_shrReg (x y : Nibble) :
    decode (nibblesWord 0x8 x.val y.val 0x6) = .ok (.shrReg x y) := by
  obtain ⟨hclass, hx, hy, hn⟩ := nibblesWord_fields (c := 0x8) (n := 0x6) (by decide) x y (by decide)
  simp [decode, decodeClass8, hclass, hx, hy, hn]

theorem decode_nibblesWord_shlReg (x y : Nibble) :
    decode (nibblesWord 0x8 x.val y.val 0xE) = .ok (.shlReg x y) := by
  obtain ⟨hclass, hx, hy, hn⟩ := nibblesWord_fields (c := 0x8) (n := 0xE) (by decide) x y (by decide)
  simp [decode, decodeClass8, hclass, hx, hy, hn]

/-! ### Meanings of the register copy, addition, subtraction and shifts -/

theorem exec_ldReg (x y : Nibble) (s : State) : exec (.ldReg x y) s = .next (s.setV x (s.getV y)) := rfl

theorem exec_addReg (x y : Nibble) (s : State) :
    exec (.addReg x y) s = .next (s.setVThenFlag x (s.getV x + s.getV y) (carryFlag (s.getV x) (s.getV y))) := rfl

theorem exec_subReg (x y : Nibble) (s : State) :
    exec (.subReg x y) s = .next (s.setVThenFlag x (s.getV x - s.getV y) (notBorrowFlag (s.getV x) (s.getV y))) := rfl

theorem exec_shrReg (x y : Nibble) (s : State) :
    exec (.shrReg x y) s = .next (s.setVThenFlag x (s.getV y >>> 1) (shiftedOutRight (s.getV y))) := rfl

theorem exec_shlReg (x y : Nibble) (s : State) :
    exec (.shlReg x y) s = .next (s.setVThenFlag x (s.getV y <<< 1) (shiftedOutLeft (s.getV y))) := rfl

/-- An instruction whose meaning is a write of a result to V[x] and then of a flag to VF (42_alu.md R120 (d)): unless
x = F, what is true of the result is true of V[x] in the next state; what is true of the flag is true of VF; and nothing
else changes. -/
theorem exec_setVThenFlag_spec {i : Instr} {s : State} {x : Nibble} {v f : Byte} {P Q : Byte → Prop}
    (hexec : exec i s = .next (s.setVThenFlag x v f)) (hv : P v) (hf : Q f) :
    ∃ t, exec i s = .next t ∧ (x ≠ 0xF → P (t.getV x)) ∧ Q (t.getV 0xF) ∧
      s.RegsSameExcept t [x, 0xF] ∧ s.OnlyChanges t [.regs] :=
  ⟨s.setVThenFlag x v f, hexec, fun hx => (s.getV_setVThenFlag_result hx v f).symm ▸ hv,
    (s.getV_setVThenFlag_flag x v f).symm ▸ hf, s.regsSameExcept_setVThenFlag x v f, s.onlyChanges_setVThenFlag x v f⟩

/-! ### The statements -/

/-- Settles O20: LD Vx, Vy is one write of V[y] to V[x]. -/
theorem assignCopiesVy : Obligations.AssignCopiesVy := by
  intro s x y
  exact ⟨decode_nibblesWord_ldReg x y, exec_setV_spec (P := (· = s.getV y)) (exec_ldReg x y s) rfl⟩

/-- Settles O22: ADD Vx, Vy writes the byte sum, which is the sum modulo 256, and then the carry. -/
theorem addSetsCarry : Obligations.AddSetsCarry := by
  intro s x y
  exact ⟨decode_nibblesWord_addReg x y,
    exec_setVThenFlag_spec (P := fun v => v.toNat = ((s.getV x).toNat + (s.getV y).toNat) % 256)
      (Q := (· = if (s.getV x).toNat + (s.getV y).toNat > 255 then 1 else 0)) (exec_addReg x y s)
      (BitVec.toNat_add (s.getV x) (s.getV y)) (carryFlag_eq (s.getV x) (s.getV y))⟩

/-- Settles O23: SUB Vx, Vy writes the byte difference, which is the difference modulo 256, and then NOT borrow. -/
theorem subtractSetsNotBorrow : Obligations.SubtractSetsNotBorrow := by
  intro s x y
  exact ⟨decode_nibblesWord_subReg x y,
    exec_setVThenFlag_spec (P := fun v => (v.toNat : Int) = ((s.getV x).toNat - (s.getV y).toNat : Int) % 256)
      (Q := (· = if (s.getV x).toNat ≥ (s.getV y).toNat then 1 else 0)) (exec_subReg x y s)
      (byte_sub_toNat_emod (s.getV x) (s.getV y)) (notBorrowFlag_eq (s.getV x) (s.getV y))⟩

/-- Settles O25: each shift writes V[y] shifted by one, half of it or its double modulo 256, and then the bit shifted
out, its lowest or its highest. -/
theorem shiftsReadVyAndSetVF : Obligations.ShiftsReadVyAndSetVF := by
  intro s x y
  exact ⟨decode_nibblesWord_shrReg x y, decode_nibblesWord_shlReg x y,
    exec_setVThenFlag_spec (P := fun v => v.toNat = (s.getV y).toNat / 2)
      (Q := fun f => f.toNat = (s.getV y).toNat % 2) (exec_shrReg x y s)
      (byte_shiftRight_one_toNat (s.getV y)) (shiftedOutRight_toNat (s.getV y)),
    exec_setVThenFlag_spec (P := fun v => v.toNat = (s.getV y).toNat * 2 % 256)
      (Q := fun f => f.toNat = (s.getV y).toNat / 128) (exec_shlReg x y s)
      (byte_shiftLeft_one_toNat (s.getV y)) (shiftedOutLeft_toNat (s.getV y))⟩

end Sys2Proof.Machine
end

section
/-! The loads of the index register (43_index.md, R131 and R133): the words that decode to them, the frame of a write of
I, the glyph address as a number, and what an instruction does whose meaning is one write of I. -/

namespace Sys2Proof.Machine

/-! ### Frame of a write of I -/

/-- Writing I leaves every other part of the state alone. -/
theorem State.onlyChanges_setI (s : State) (v : Word) : s.OnlyChanges (s.setI v) [.index] := by
  intro p hp
  cases p with
  | index => exact absurd (List.mem_singleton.2 rfl) hp
  | _ => simp [State.SamePart]

/-! ### The glyph address as a number -/

/-- The font starts at address 0 and five times a nibble is far below 65536, so the address is the product itself. -/
theorem glyphAddress_toNat (v : Byte) : (glyphAddress v).toNat = 5 * (v.toNat % 16) := by
  have hlow : (v &&& 0x0F).toNat = v.toNat % 16 := Nat.and_two_pow_sub_one_eq_mod v.toNat 4
  rw [glyphAddress, hlow, BitVec.toNat_ofNat, fontBase]
  omega

/-! ### Words of the loads of I -/

theorem decode_addrWord_ldI (nnn : Addr12) : decode (addrWord 0xA nnn.toNat) = .ok (.ldI nnn) := by
  obtain ⟨hclass, hnnn⟩ := addrWord_fields (c := 0xA) (by decide) nnn
  simp [decode, hclass, hnnn]

theorem decode_byteWord_ldFVx (x : Nibble) : decode (byteWord 0xF x.val 0x29) = .ok (.ldFVx x) := by
  obtain ⟨hclass, hx, hkk⟩ := byteWord_fields (c := 0xF) (kk := 0x29) (by decide) x (by decide)
  simp [decode, decodeClassF, hclass, hx, hkk]

/-! ### Meanings of the loads of I -/

theorem exec_ldI (nnn : Addr12) (s : State) : exec (.ldI nnn) s = .next (s.setI (zextAddr nnn)) := rfl

theorem exec_ldFVx (x : Nibble) (s : State) : exec (.ldFVx x) s = .next (s.setI (glyphAddress (s.getV x))) := rfl

/-- An instruction whose meaning is one write of I: I takes the value written, as a number, and nothing else changes. -/
theorem exec_setI_spec {i : Instr} {s : State} {v : Word} {k : Nat}
    (hexec : exec i s = .next (s.setI v)) (hv : v.toNat = k) :
    ∃ t, exec i s = .next t ∧ t.I.toNat = k ∧ s.OnlyChanges t [.index] :=
  ⟨s.setI v, hexec, (congrArg BitVec.toNat (s.setI_I v)).trans hv, s.onlyChanges_setI v⟩

/-! ### The statements -/

/-- Settles O26: LD I, nnn is one write of the zero-extended nnn to I, and LD F, Vx one of the glyph address of V[x]. -/
theorem indexLoads : Obligations.IndexLoads := by
  intro s nnn x
  exact ⟨decode_addrWord_ldI nnn, decode_byteWord_ldFVx x,
    exec_setI_spec (exec_ldI nnn s) (zextAddr_toNat nnn),
    exec_setI_spec (exec_ldFVx x s) (glyphAddress_toNat (s.getV x))⟩

end Sys2Proof.Machine
end

section
/-! The clear of the display (45_display.md, R140): the word that decodes to it, the frame of a write of the display, and
the display that CLS leaves. -/

namespace Sys2Proof.Machine

/-! ### Frame of a write of the display -/

/-- Replacing the display leaves every other part of the state alone. -/
theorem State.onlyChanges_setDisplay (s : State) (d : Display) : s.OnlyChanges (s.setDisplay d) [.display] := by
  intro p hp
  cases p with
  | display => exact absurd (List.mem_singleton.2 rfl) hp
  | _ => simp [State.SamePart]

/-! ### Word and meaning of CLS -/

/-- Of the words of class 0, 00E0 is tested before any SYS (30_encoding.md R75). -/
theorem decode_word_cls : decode 0x00E0 = .ok .cls := by decide

theorem exec_cls (s : State) : exec .cls s = .next (s.setDisplay Display.clear) := rfl

/-- After the clear, no pixel is lit, whatever the display held before. -/
theorem State.setDisplay_clear_pix (s : State) (px : Fin 64) (py : Fin 32) :
    (s.setDisplay Display.clear).pix px py = false :=
  (s.setDisplay_pix Display.clear px py).trans (Display.clear_pix px py)

/-! ### The statement -/

/-- Settles O30: CLS is one write of the all-false display. -/
theorem clearTurnsEveryPixelOff : Obligations.ClearTurnsEveryPixelOff :=
  ⟨decode_word_cls, fun s =>
    ⟨s.setDisplay Display.clear, exec_cls s, s.setDisplay_clear_pix, s.onlyChanges_setDisplay Display.clear⟩⟩

end Sys2Proof.Machine
end

section
/-! The writers of the keypad (46_keypad.md, R154 and R155): the keys after an instruction, a step and each host
transaction. -/

namespace Sys2Proof.Machine

/-! ### Instructions and steps leave the keypad -/

/-- Every effect of an instruction is made of writes to other parts of the state. -/
theorem Effect.keys_eq {i : Instr} {s t : State} (h : Effect i s t) : t.keys = s.keys := by
  cases i with
  | sys | cls => subst h; rfl
  | jp | jpV0 | seImm | sneImm | seReg | sneReg | ldImm | addImm | ldReg | orReg | andReg | xorReg | ldVxDt | ldI
  | addIVx | ldFVx | rnd | ldDtVx | ldStVx => obtain ⟨_, rfl⟩ := h; rfl
  | addReg | subReg | shrReg | subnReg | shlReg | drw => obtain ⟨_, _, rfl⟩ := h; rfl
  | call => obtain ⟨_, rfl⟩ | ⟨_, _, _, rfl⟩ := h <;> rfl
  | ret => obtain ⟨_, rfl⟩ | ⟨_, _, rfl⟩ := h <;> rfl
  | skp | sknp =>
    obtain ⟨c, rfl⟩ | ⟨_, _, rfl⟩ := h
    · exact s.skipIf_keys c
    · rfl
  | ldVxK => obtain ⟨_, rfl⟩ | ⟨_, rfl⟩ := h <;> rfl
  | ldBVx => obtain ⟨_, _, rfl⟩ := h; rfl
  | storeRegs | loadRegs => obtain ⟨_, _, _, _, rfl⟩ := h; rfl

theorem step_keys {s t : State} (h : step s = .next t) : t.keys = s.keys := by
  obtain ⟨_, rfl⟩ | ⟨_, _, rfl⟩ | ⟨_, i, _, hexec⟩ := step_cases h
  · rfl
  · rfl
  · exact (exec_effect hexec).keys_eq

/-! ### Host transactions -/

theorem executeWith_keys {s u : State} {b : Byte} {r : Response} (h : s.executeWith b = .next (u, r)) :
    u.keys = s.keys := by
  obtain ⟨_, t, ht, rfl⟩ := executeWith_cases h
  have hkeys : t.keys = ({ s with rnd := b } : State).keys := step_keys ht
  exact hkeys

/-- An accepted image is written to memory alone, and a rejected one nowhere. -/
theorem State.loadProgram_keys (s : State) (bytes : List Byte) : (s.loadProgram bytes).1.keys = s.keys := by
  rw [State.loadProgram]
  split
  · rfl
  · obtain ⟨m, hm, _⟩ := s.writeBytes_only_memory programBase bytes
    rw [hm]

/-- A set_key outside its precondition has no effect (92_eei_decisions.md D28). -/
theorem State.hostSetKey_of_not_lt (s : State) {k : Nat} (hk : ¬ k < 16) (pressed : Bool) :
    s.hostSetKey k pressed = (s, .violation (.keyIndex k)) :=
  if_neg hk

/-- A transaction leaves the keypad unless it is reset or a set_key inside its precondition. -/
theorem transact_keys {s u : State} {tr : Transaction} {r : Response} (h : transact s tr = .next (u, r)) :
    u.keys = s.keys ∨ tr = .reset ∨ ∃ k pressed, tr = .setKey k pressed ∧ k < 16 := by
  cases tr with
  | reset => exact .inr (.inl rfl)
  | setKey k pressed =>
    by_cases hk : k < 16
    · exact .inr (.inr ⟨k, pressed, rfl, hk⟩)
    · rw [transact, s.hostSetKey_of_not_lt hk] at h
      cases h
      exact .inl rfl
  | loadProgram bytes =>
    injection h with h
    have hkeys := s.loadProgram_keys bytes
    rw [h] at hkeys
    exact .inl hkeys
  | execute b => exact .inl (executeWith_keys h)
  | tickTimers | getDisplay | getDisplayPixel | getFault => cases h; exact .inl rfl

/-! ### The statement -/

/-- Settles O47: no step writes the keys, and of the transactions only reset and a legal set_key do. -/
theorem onlyTheHostWritesTheKeypad : Obligations.OnlyTheHostWritesTheKeypad :=
  ⟨fun _ _ => step_keys, fun _ _ _ _ h hne => (transact_keys h).resolve_left hne⟩

end Sys2Proof.Machine
end

section
/-! The timer instructions (47_timers.md, R160 to R162): the words that decode to them, the frames of a write of DT and of
ST, and what each instruction writes. -/

namespace Sys2Proof.Machine

/-! ### Frames of a write of DT and of ST -/

/-- Writing DT leaves every other part of the state alone, ST among them. -/
theorem State.onlyChanges_setDT (s : State) (v : Byte) : s.OnlyChanges (s.setDT v) [.delay] := by
  intro p hp
  cases p with
  | delay => exact absurd (List.mem_singleton.2 rfl) hp
  | _ => simp [State.SamePart]

/-- Writing ST leaves every other part of the state alone, DT among them. -/
theorem State.onlyChanges_setST (s : State) (v : Byte) : s.OnlyChanges (s.setST v) [.sound] := by
  intro p hp
  cases p with
  | sound => exact absurd (List.mem_singleton.2 rfl) hp
  | _ => simp [State.SamePart]

/-! ### Words of the timer instructions -/

theorem decode_byteWord_ldVxDt (x : Nibble) : decode (byteWord 0xF x.val 0x07) = .ok (.ldVxDt x) := by
  obtain ⟨hclass, hx, hkk⟩ := byteWord_fields (c := 0xF) (kk := 0x07) (by decide) x (by decide)
  simp [decode, decodeClassF, hclass, hx, hkk]

theorem decode_byteWord_ldDtVx (x : Nibble) : decode (byteWord 0xF x.val 0x15) = .ok (.ldDtVx x) := by
  obtain ⟨hclass, hx, hkk⟩ := byteWord_fields (c := 0xF) (kk := 0x15) (by decide) x (by decide)
  simp [decode, decodeClassF, hclass, hx, hkk]

theorem decode_byteWord_ldStVx (x : Nibble) : decode (byteWord 0xF x.val 0x18) = .ok (.ldStVx x) := by
  obtain ⟨hclass, hx, hkk⟩ := byteWord_fields (c := 0xF) (kk := 0x18) (by decide) x (by decide)
  simp [decode, decodeClassF, hclass, hx, hkk]

/-! ### Meanings of the timer instructions -/

theorem exec_ldVxDt (x : Nibble) (s : State) : exec (.ldVxDt x) s = .next (s.setV x s.DT) := rfl

theorem exec_ldDtVx (x : Nibble) (s : State) : exec (.ldDtVx x) s = .next (s.setDT (s.getV x)) := rfl

theorem exec_ldStVx (x : Nibble) (s : State) : exec (.ldStVx x) s = .next (s.setST (s.getV x)) := rfl

/-! ### The statement -/

/-- Settles O38: each timer instruction is one write, of DT to V[x], of V[x] to DT, or of V[x] to ST. -/
theorem timerReadsAndWrites : Obligations.TimerReadsAndWrites := by
  intro s x
  exact ⟨decode_byteWord_ldVxDt x, decode_byteWord_ldDtVx x, decode_byteWord_ldStVx x,
    exec_setV_spec (P := (· = s.DT)) (exec_ldVxDt x s) rfl,
    ⟨s.setDT (s.getV x), exec_ldDtVx x s, s.setDT_DT (s.getV x), s.onlyChanges_setDT (s.getV x)⟩,
    ⟨s.setST (s.getV x), exec_ldStVx x s, s.setST_ST (s.getV x), s.onlyChanges_setST (s.getV x)⟩⟩

end Sys2Proof.Machine
end

section
/-! The block transfers FX55 and FX65 (48_block_transfer.md, R171 to R173): the words that decode to them, frames one after
the other, the registers after a load, and I under both values of BLOCK_TRANSFER_I_MODE. -/

namespace Sys2Proof.Machine

/-! ### Frames one after the other -/

/-- A part that two updates leave alone is left alone by both together. -/
theorem State.SamePart.trans {r s t : State} {p : Part} (h : r.SamePart s p) (g : s.SamePart t p) : r.SamePart t p := by
  cases p with
  | regs | keys | memory => exact fun a => (g a).trans (h a)
  | display => exact fun px py => (g px py).trans (h px py)
  | random => exact ⟨g.1.trans h.1, g.2.trans h.2⟩
  | index | pc | stack | sp | delay | sound | fault | params => exact Eq.trans g h

theorem State.OnlyChanges.trans {r s t : State} {ps qs : List Part} (h : r.OnlyChanges s ps) (g : s.OnlyChanges t qs) :
    r.OnlyChanges t (ps ++ qs) := by
  intro p hp
  obtain ⟨hps, hqs⟩ : p ∉ ps ∧ p ∉ qs := by simpa using hp
  exact (h p hps).trans (g p hqs)

/-- A register dump leaves every part of the state but memory alone. -/
theorem State.onlyChanges_storeV (s : State) (base : Nat) (ks : List Nibble) :
    s.OnlyChanges (s.storeV base ks) [.memory] := by
  obtain ⟨m, hm, _⟩ := s.storeV_only_memory base ks
  rw [hm]
  intro p hp
  cases p with
  | memory => exact absurd (List.mem_singleton.2 rfl) hp
  | random => exact ⟨rfl, rfl⟩
  | regs | keys => exact fun _ => rfl
  | display => exact fun _ _ => rfl
  | index | pc | stack | sp | delay | sound | fault | params => rfl

/-- A register load leaves every part of the state but the registers alone, memory among them. -/
theorem State.onlyChanges_loadV (s : State) (base : Nat) (ks : List Nibble) :
    s.OnlyChanges (s.loadV base ks) [.regs] := by
  obtain ⟨v, hv, _⟩ := s.loadV_only_regs base ks
  rw [hv]
  intro p hp
  cases p with
  | regs => exact absurd (List.mem_singleton.2 rfl) hp
  | random => exact ⟨rfl, rfl⟩
  | keys | memory => exact fun _ => rfl
  | display => exact fun _ _ => rfl
  | index | pc | stack | sp | delay | sound | fault | params => rfl

/-! ### The registers after a load -/

theorem State.loadV_getV (s : State) (base : Nat) (ks : List Nibble) (k : Nibble) :
    (s.loadV base ks).getV k = if k ∈ ks then s.readByte (base + k.val) else s.getV k := by
  obtain ⟨v, hv, hread⟩ := s.loadV_only_regs base ks
  rw [hv]
  exact hread k

/-! ### I after a transfer under ADVANCE -/

/-- Adding x + 1 to I wraps at 65536. -/
theorem blockTransferI_advance_toNat {s : State} {x : Nibble} (h : s.cfg.blockTransferIMode = .advance) :
    (blockTransferI s.cfg.blockTransferIMode s.I x).toNat = (s.I.toNat + x.val + 1) % 65536 := by
  rw [h, blockTransferI, BitVec.toNat_add, BitVec.toNat_ofNat, Nat.add_mod_mod, Nat.add_assoc]

/-! ### Words of the block transfers -/

theorem decode_byteWord_storeRegs (x : Nibble) : decode (byteWord 0xF x.val 0x55) = .ok (.storeRegs x) := by
  obtain ⟨hclass, hx, hkk⟩ := byteWord_fields (c := 0xF) (kk := 0x55) (by decide) x (by decide)
  simp [decode, decodeClassF, hclass, hx, hkk]

theorem decode_byteWord_loadRegs (x : Nibble) : decode (byteWord 0xF x.val 0x65) = .ok (.loadRegs x) := by
  obtain ⟨hclass, hx, hkk⟩ := byteWord_fields (c := 0xF) (kk := 0x65) (by decide) x (by decide)
  simp [decode, decodeClassF, hclass, hx, hkk]

/-! ### Meanings of the block transfers -/

theorem exec_storeRegs (x : Nibble) (s : State) :
    exec (.storeRegs x) s =
      .next ((s.storeV s.I.toNat (regsUpTo x)).setI (blockTransferI s.cfg.blockTransferIMode s.I x)) := rfl

theorem exec_loadRegs (x : Nibble) (s : State) :
    exec (.loadRegs x) s =
      .next ((s.loadV s.I.toNat (regsUpTo x)).setI (blockTransferI s.cfg.blockTransferIMode s.I x)) := rfl

/-! ### The statements -/

/-- Settles O42: LD [I], Vx is a dump of V0 to Vx from I, and then one write of I. The dumped registers have different
places, x + 1 being at most 16, so each reads back. -/
theorem registerDumpStoresV0ToVx : Obligations.RegisterDumpStoresV0ToVx := by
  intro s x
  refine ⟨decode_byteWord_storeRegs x, _, exec_storeRegs x s, fun k hk => ?stored, fun a ha => ?others,
    blockTransferI_keep, blockTransferI_advance_toNat, (s.onlyChanges_storeV _ _).trans (State.onlyChanges_setI _ _)⟩
  case stored =>
    rw [State.setI_readByte]
    exact s.readByte_storeV_inside s.I.toNat (regsUpTo x) k ((mem_regsUpTo x k).2 hk)
  case others =>
    rw [State.setI_readByte]
    exact s.readByte_storeV_outside s.I.toNat a (regsUpTo x) fun k hk => ha k ((mem_regsUpTo x k).1 hk)

/-- Settles O43: LD Vx, [I] is a load of V0 to Vx from I, and then one write of I. -/
theorem registerLoadFillsV0ToVx : Obligations.RegisterLoadFillsV0ToVx := by
  intro s x
  refine ⟨decode_byteWord_loadRegs x, _, exec_loadRegs x s, fun k hk => ?loaded, fun k hk => ?higher,
    blockTransferI_keep, blockTransferI_advance_toNat, (s.onlyChanges_loadV _ _).trans (State.onlyChanges_setI _ _)⟩
  case loaded =>
    rw [State.setI_getV, State.loadV_getV, if_pos ((mem_regsUpTo x k).2 hk)]
  case higher =>
    rw [State.setI_getV, State.loadV_getV, if_neg (mt (mem_regsUpTo x k).1 (not_le.2 hk))]

end Sys2Proof.Machine
end

section
/-! The rest of the opcode map's words, and the encoder against the decoder (30_encoding.md, R73 to R79): a form's word
decodes to its instruction, and a word that decodes is the word of its instruction. -/

namespace Sys2Proof.Machine

/-! ### Words of the other forms -/

/-- Of the words of class 0, all but 00E0 and 00EE are SYS (30_encoding.md R75). -/
theorem decode_addrWord_sys {nnn : Addr12} (hfree : SysAddressFree nnn) :
    decode (addrWord 0x0 nnn.toNat) = .ok (.sys nnn) := by
  obtain ⟨hclass, hnnn⟩ := addrWord_fields (c := 0x0) (by decide) nnn
  have hcls : addrWord 0x0 nnn.toNat ≠ 0x00E0 := fun h => hfree.1 (by rw [← hnnn, h]; rfl)
  have hret : addrWord 0x0 nnn.toNat ≠ 0x00EE := fun h => hfree.2 (by rw [← hnnn, h]; rfl)
  have hsys : decodeClass0 (addrWord 0x0 nnn.toNat) = .sys nnn := by
    rw [decodeClass0, if_neg hcls, if_neg hret, hnnn]
  simp [decode, hclass, hsys]

theorem decode_word_ret : decode 0x00EE = .ok .ret := by decide

theorem decode_addrWord_call (nnn : Addr12) : decode (addrWord 0x2 nnn.toNat) = .ok (.call nnn) := by
  obtain ⟨hclass, hnnn⟩ := addrWord_fields (c := 0x2) (by decide) nnn
  simp [decode, hclass, hnnn]

theorem decode_addrWord_jpV0 (nnn : Addr12) : decode (addrWord 0xB nnn.toNat) = .ok (.jpV0 nnn) := by
  obtain ⟨hclass, hnnn⟩ := addrWord_fields (c := 0xB) (by decide) nnn
  simp [decode, hclass, hnnn]

theorem decode_byteWord_rnd (x : Nibble) (kk : Byte) :
    decode (byteWord 0xC x.val kk.toNat) = .ok (.rnd x kk) := by
  obtain ⟨hclass, hx, _⟩ := byteWord_fields (c := 0xC) (by decide) x kk.isLt
  simp [decode, hclass, hx, fieldKK_byteWord]

theorem decode_nibblesWord_orReg (x y : Nibble) :
    decode (nibblesWord 0x8 x.val y.val 0x1) = .ok (.orReg x y) := by
  obtain ⟨hclass, hx, hy, hn⟩ := nibblesWord_fields (c := 0x8) (n := 0x1) (by decide) x y (by decide)
  simp [decode, decodeClass8, hclass, hx, hy, hn]

theorem decode_nibblesWord_andReg (x y : Nibble) :
    decode (nibblesWord 0x8 x.val y.val 0x2) = .ok (.andReg x y) := by
  obtain ⟨hclass, hx, hy, hn⟩ := nibblesWord_fields (c := 0x8) (n := 0x2) (by decide) x y (by decide)
  simp [decode, decodeClass8, hclass, hx, hy, hn]

theorem decode_nibblesWord_xorReg (x y : Nibble) :
    decode (nibblesWord 0x8 x.val y.val 0x3) = .ok (.xorReg x y) := by
  obtain ⟨hclass, hx, hy, hn⟩ := nibblesWord_fields (c := 0x8) (n := 0x3) (by decide) x y (by decide)
  simp [decode, decodeClass8, hclass, hx, hy, hn]

theorem decode_nibblesWord_subnReg (x y : Nibble) :
    decode (nibblesWord 0x8 x.val y.val 0x7) = .ok (.subnReg x y) := by
  obtain ⟨hclass, hx, hy, hn⟩ := nibblesWord_fields (c := 0x8) (n := 0x7) (by decide) x y (by decide)
  simp [decode, decodeClass8, hclass, hx, hy, hn]

theorem decode_nibblesWord_drw (x y n : Nibble) :
    decode (nibblesWord 0xD x.val y.val n.val) = .ok (.drw x y n) := by
  obtain ⟨hclass, hx, hy, hn⟩ := nibblesWord_fields (c := 0xD) (by decide) x y n.isLt
  simp [decode, hclass, hx, hy, Fin.ext_iff, hn]

theorem decode_byteWord_skp (x : Nibble) : decode (byteWord 0xE x.val 0x9E) = .ok (.skp x) := by
  obtain ⟨hclass, hx, hkk⟩ := byteWord_fields (c := 0xE) (kk := 0x9E) (by decide) x (by decide)
  simp [decode, decodeClassE, hclass, hx, hkk]

theorem decode_byteWord_sknp (x : Nibble) : decode (byteWord 0xE x.val 0xA1) = .ok (.sknp x) := by
  obtain ⟨hclass, hx, hkk⟩ := byteWord_fields (c := 0xE) (kk := 0xA1) (by decide) x (by decide)
  simp [decode, decodeClassE, hclass, hx, hkk]

theorem decode_byteWord_ldVxK (x : Nibble) : decode (byteWord 0xF x.val 0x0A) = .ok (.ldVxK x) := by
  obtain ⟨hclass, hx, hkk⟩ := byteWord_fields (c := 0xF) (kk := 0x0A) (by decide) x (by decide)
  simp [decode, decodeClassF, hclass, hx, hkk]

theorem decode_byteWord_addIVx (x : Nibble) : decode (byteWord 0xF x.val 0x1E) = .ok (.addIVx x) := by
  obtain ⟨hclass, hx, hkk⟩ := byteWord_fields (c := 0xF) (kk := 0x1E) (by decide) x (by decide)
  simp [decode, decodeClassF, hclass, hx, hkk]

theorem decode_byteWord_ldBVx (x : Nibble) : decode (byteWord 0xF x.val 0x33) = .ok (.ldBVx x) := by
  obtain ⟨hclass, hx, hkk⟩ := byteWord_fields (c := 0xF) (kk := 0x33) (by decide) x (by decide)
  simp [decode, decodeClassF, hclass, hx, hkk]

/-! ### From the word of the opcode map to the encoder's word, by format -/

theorem decode_formNNN (c : Nibble) {nnn : Addr12} {i : Instr} (h : decode (addrWord c.val nnn.toNat) = .ok i) :
    decode (BitVec.ofNat 16 (c.val * 4096) ||| zextAddr nnn) = .ok i := by
  rwa [BitVec.eq_of_toNat_eq ((encodeNNN_toNat c nnn).trans (addrWord_toNat c.isLt nnn).symm)]

theorem decode_formXNN (c : Nibble) {x : Nibble} {kk : Byte} {i : Instr}
    (h : decode (byteWord c.val x.val kk.toNat) = .ok i) :
    decode (BitVec.ofNat 16 (c.val * 4096) ||| (placeX x ||| zextByte kk)) = .ok i := by
  rwa [BitVec.eq_of_toNat_eq ((encodeXNN_toNat c x kk).trans (byteWord_toNat c.isLt x kk.isLt).symm)]

theorem decode_formXYN (c : Nibble) {x y n : Nibble} {i : Instr}
    (h : decode (nibblesWord c.val x.val y.val n.val) = .ok i) :
    decode (BitVec.ofNat 16 (c.val * 4096) ||| (placeX x ||| placeY y ||| placeN n)) = .ok i := by
  rwa [BitVec.eq_of_toNat_eq ((encodeXYN_toNat c x y n).trans (nibblesWord_toNat c.isLt x y n.isLt).symm)]

theorem decode_formXYS (c n : Nibble) {x y : Nibble} {i : Instr}
    (h : decode (nibblesWord c.val x.val y.val n.val) = .ok i) :
    decode (BitVec.ofNat 16 (c.val * 4096 + n.val) ||| (placeX x ||| placeY y)) = .ok i := by
  rwa [BitVec.eq_of_toNat_eq ((encodeXYS_toNat c x y n).trans (nibblesWord_toNat c.isLt x y n.isLt).symm)]

theorem decode_formXS (c : Nibble) (kk : Byte) {x : Nibble} {i : Instr}
    (h : decode (byteWord c.val x.val kk.toNat) = .ok i) :
    decode (BitVec.ofNat 16 (c.val * 4096 + kk.toNat) ||| placeX x) = .ok i := by
  rwa [BitVec.eq_of_toNat_eq ((encodeXS_toNat c x kk).trans (byteWord_toNat c.isLt x kk.isLt).symm)]

/-! ### The statement -/

/-- Settles O6: by the form. The encoder's word of a form is the word of the opcode map with its operands, and that word
decodes to the form; only SYS needs that it is well-formed. -/
theorem decodeOfEncodeIsTheInstruction : Obligations.DecodeOfEncodeIsTheInstruction := by
  intro i hwf
  cases i with
  | cls => exact decode_word_cls
  | ret => exact decode_word_ret
  | sys nnn => exact decode_formNNN 0x0 (decode_addrWord_sys (of_decide_eq_true hwf))
  | jp nnn => exact decode_formNNN 0x1 (decode_addrWord_jp nnn)
  | call nnn => exact decode_formNNN 0x2 (decode_addrWord_call nnn)
  | ldI nnn => exact decode_formNNN 0xA (decode_addrWord_ldI nnn)
  | jpV0 nnn => exact decode_formNNN 0xB (decode_addrWord_jpV0 nnn)
  | seImm x kk => exact decode_formXNN 0x3 (decode_byteWord_seImm x kk)
  | sneImm x kk => exact decode_formXNN 0x4 (decode_byteWord_sneImm x kk)
  | ldImm x kk => exact decode_formXNN 0x6 (decode_byteWord_ldImm x kk)
  | addImm x kk => exact decode_formXNN 0x7 (decode_byteWord_addImm x kk)
  | rnd x kk => exact decode_formXNN 0xC (decode_byteWord_rnd x kk)
  | seReg x y => exact decode_formXYS 0x5 0x0 (decode_nibblesWord_seReg x y)
  | ldReg x y => exact decode_formXYS 0x8 0x0 (decode_nibblesWord_ldReg x y)
  | orReg x y => exact decode_formXYS 0x8 0x1 (decode_nibblesWord_orReg x y)
  | andReg x y => exact decode_formXYS 0x8 0x2 (decode_nibblesWord_andReg x y)
  | xorReg x y => exact decode_formXYS 0x8 0x3 (decode_nibblesWord_xorReg x y)
  | addReg x y => exact decode_formXYS 0x8 0x4 (decode_nibblesWord_addReg x y)
  | subReg x y => exact decode_formXYS 0x8 0x5 (decode_nibblesWord_subReg x y)
  | shrReg x y => exact decode_formXYS 0x8 0x6 (decode_nibblesWord_shrReg x y)
  | subnReg x y => exact decode_formXYS 0x8 0x7 (decode_nibblesWord_subnReg x y)
  | shlReg x y => exact decode_formXYS 0x8 0xE (decode_nibblesWord_shlReg x y)
  | sneReg x y => exact decode_formXYS 0x9 0x0 (decode_nibblesWord_sneReg x y)
  | drw x y n => exact decode_formXYN 0xD (decode_nibblesWord_drw x y n)
  | skp x => exact decode_formXS 0xE 0x9E (decode_byteWord_skp x)
  | sknp x => exact decode_formXS 0xE 0xA1 (decode_byteWord_sknp x)
  | ldVxDt x => exact decode_formXS 0xF 0x07 (decode_byteWord_ldVxDt x)
  | ldVxK x => exact decode_formXS 0xF 0x0A (decode_byteWord_ldVxK x)
  | ldDtVx x => exact decode_formXS 0xF 0x15 (decode_byteWord_ldDtVx x)
  | ldStVx x => exact decode_formXS 0xF 0x18 (decode_byteWord_ldStVx x)
  | addIVx x => exact decode_formXS 0xF 0x1E (decode_byteWord_addIVx x)
  | ldFVx x => exact decode_formXS 0xF 0x29 (decode_byteWord_ldFVx x)
  | ldBVx x => exact decode_formXS 0xF 0x33 (decode_byteWord_ldBVx x)
  | storeRegs x => exact decode_formXS 0xF 0x55 (decode_byteWord_storeRegs x)
  | loadRegs x => exact decode_formXS 0xF 0x65 (decode_byteWord_loadRegs x)

end Sys2Proof.Machine
end

section
/-! The decoder against the opcode map (30_encoding.md, R74 to R80): a decoded word is the word of its instruction, the
unknown words by class, and the rows that select a word. -/

namespace Sys2Proof.Machine

/-! ### A word from its class and its fields, by format -/

theorem formNNN_fields {w : Word} (c : Nibble) (hc : (fieldC w).val = c.val) :
    BitVec.ofNat 16 (c.val * 4096) ||| zextAddr (fieldNNN w) = w := by
  obtain ⟨hw, _, _⟩ := word_toNat_fields w
  exact BitVec.eq_of_toNat_eq (by rw [encodeNNN_toNat]; omega)

theorem formXNN_fields {w : Word} (c : Nibble) (hc : (fieldC w).val = c.val) :
    BitVec.ofNat 16 (c.val * 4096) ||| (placeX (fieldX w) ||| zextByte (fieldKK w)) = w := by
  obtain ⟨hw, hnnn, _⟩ := word_toNat_fields w
  exact BitVec.eq_of_toNat_eq (by rw [encodeXNN_toNat]; omega)

theorem formXYN_fields {w : Word} (c : Nibble) (hc : (fieldC w).val = c.val) :
    BitVec.ofNat 16 (c.val * 4096) ||| (placeX (fieldX w) ||| placeY (fieldY w) ||| placeN (fieldN w)) = w := by
  obtain ⟨hw, hnnn, hkk⟩ := word_toNat_fields w
  exact BitVec.eq_of_toNat_eq (by rw [encodeXYN_toNat]; omega)

theorem formXYS_fields {w : Word} (c n : Nibble) (hc : (fieldC w).val = c.val) (hn : (fieldN w).val = n.val) :
    BitVec.ofNat 16 (c.val * 4096 + n.val) ||| (placeX (fieldX w) ||| placeY (fieldY w)) = w := by
  obtain ⟨hw, hnnn, hkk⟩ := word_toNat_fields w
  exact BitVec.eq_of_toNat_eq (by rw [encodeXYS_toNat]; omega)

theorem formXS_fields {w : Word} (c : Nibble) (kk : Byte) (hc : (fieldC w).val = c.val) (hkk : fieldKK w = kk) :
    BitVec.ofNat 16 (c.val * 4096 + kk.toNat) ||| placeX (fieldX w) = w := by
  obtain ⟨hw, hnnn, _⟩ := word_toNat_fields w
  exact BitVec.eq_of_toNat_eq (by rw [encodeXS_toNat, ← hkk]; omega)

/-! ### A decoded word is the word of its instruction -/

/-- Class 0: SYS takes the words that CLS and RET leave, so it never has their addresses (30_encoding.md R75). -/
theorem decodeClass0_spec {w : Word} (hc : (fieldC w).val = 0x0) :
    (decodeClass0 w).WellFormed ∧ encode (decodeClass0 w) = w := by
  have hw : BitVec.ofNat 16 (0 * 4096) ||| zextAddr (fieldNNN w) = w := formNNN_fields 0x0 hc
  rw [decodeClass0]
  split
  case isTrue h => exact h ▸ ⟨rfl, rfl⟩
  case isFalse hcls =>
    split
    case isTrue h => exact h ▸ ⟨rfl, rfl⟩
    case isFalse hret =>
      refine ⟨decide_eq_true ⟨fun h => hcls ?_, fun h => hret ?_⟩, hw⟩ <;> rw [← hw, h] <;> rfl

theorem decodeClass8_spec {w : Word} {i : Instr} (hc : (fieldC w).val = 0x8) (h : decodeClass8 w = .ok i) :
    i.WellFormed ∧ encode i = w := by
  rw [decodeClass8] at h
  split at h <;> cases h
  case h_1 hn => exact ⟨rfl, formXYS_fields 0x8 0x0 hc hn⟩
  case h_2 hn => exact ⟨rfl, formXYS_fields 0x8 0x1 hc hn⟩
  case h_3 hn => exact ⟨rfl, formXYS_fields 0x8 0x2 hc hn⟩
  case h_4 hn => exact ⟨rfl, formXYS_fields 0x8 0x3 hc hn⟩
  case h_5 hn => exact ⟨rfl, formXYS_fields 0x8 0x4 hc hn⟩
  case h_6 hn => exact ⟨rfl, formXYS_fields 0x8 0x5 hc hn⟩
  case h_7 hn => exact ⟨rfl, formXYS_fields 0x8 0x6 hc hn⟩
  case h_8 hn => exact ⟨rfl, formXYS_fields 0x8 0x7 hc hn⟩
  case h_9 hn => exact ⟨rfl, formXYS_fields 0x8 0xE hc hn⟩

theorem decodeClassE_spec {w : Word} {i : Instr} (hc : (fieldC w).val = 0xE) (h : decodeClassE w = .ok i) :
    i.WellFormed ∧ encode i = w := by
  rw [decodeClassE] at h
  split_ifs at h with hkk hkk <;> cases h
  · exact ⟨rfl, formXS_fields 0xE 0x9E hc hkk⟩
  · exact ⟨rfl, formXS_fields 0xE 0xA1 hc hkk⟩

theorem decodeClassF_spec {w : Word} {i : Instr} (hc : (fieldC w).val = 0xF) (h : decodeClassF w = .ok i) :
    i.WellFormed ∧ encode i = w := by
  rw [decodeClassF] at h
  split_ifs at h with hkk hkk hkk hkk hkk hkk hkk hkk hkk <;> cases h
  · exact ⟨rfl, formXS_fields 0xF 0x07 hc hkk⟩
  · exact ⟨rfl, formXS_fields 0xF 0x0A hc hkk⟩
  · exact ⟨rfl, formXS_fields 0xF 0x15 hc hkk⟩
  · exact ⟨rfl, formXS_fields 0xF 0x18 hc hkk⟩
  · exact ⟨rfl, formXS_fields 0xF 0x1E hc hkk⟩
  · exact ⟨rfl, formXS_fields 0xF 0x29 hc hkk⟩
  · exact ⟨rfl, formXS_fields 0xF 0x33 hc hkk⟩
  · exact ⟨rfl, formXS_fields 0xF 0x55 hc hkk⟩
  · exact ⟨rfl, formXS_fields 0xF 0x65 hc hkk⟩

/-- Settles O7: by the class of the word. In each class the decoded form's word has the fields of w, and the sub-opcode
that the decoder tested. -/
theorem decodedWordIsTheEncoding : Obligations.DecodedWordIsTheEncoding := by
  intro w i h
  rw [decode] at h
  split at h
  case h_1 hc => cases h; exact decodeClass0_spec hc
  case h_2 hc => cases h; exact ⟨rfl, formNNN_fields 0x1 hc⟩
  case h_3 hc => cases h; exact ⟨rfl, formNNN_fields 0x2 hc⟩
  case h_4 hc => cases h; exact ⟨rfl, formXNN_fields 0x3 hc⟩
  case h_5 hc => cases h; exact ⟨rfl, formXNN_fields 0x4 hc⟩
  case h_6 hc =>
    split at h <;> cases h
    case isTrue hn => exact ⟨rfl, formXYS_fields 0x5 0x0 hc (congrArg Fin.val hn)⟩
  case h_7 hc => cases h; exact ⟨rfl, formXNN_fields 0x6 hc⟩
  case h_8 hc => cases h; exact ⟨rfl, formXNN_fields 0x7 hc⟩
  case h_9 hc => exact decodeClass8_spec hc h
  case h_10 hc =>
    split at h <;> cases h
    case isTrue hn => exact ⟨rfl, formXYS_fields 0x9 0x0 hc (congrArg Fin.val hn)⟩
  case h_11 hc => cases h; exact ⟨rfl, formNNN_fields 0xA hc⟩
  case h_12 hc => cases h; exact ⟨rfl, formNNN_fields 0xB hc⟩
  case h_13 hc => cases h; exact ⟨rfl, formXNN_fields 0xC hc⟩
  case h_14 hc => cases h; exact ⟨rfl, formXYN_fields 0xD hc⟩
  case h_15 hc => exact decodeClassE_spec hc h
  case h_16 =>
    have hc : (fieldC w).val = 0xF := by
      have hlt := (fieldC w).isLt
      grind
    exact decodeClassF_spec hc h

/-! ### The unknown words by class -/

theorem decodeClass8_error_iff (w : Word) :
    (∃ e, decodeClass8 w = .error e) ↔ fieldN w ∈ ([0x8, 0x9, 0xA, 0xB, 0xC, 0xD, 0xF] : List Nibble) := by
  rw [decodeClass8]
  generalize fieldN w = n
  fin_cases n <;> simp

theorem decodeClassE_error_iff (w : Word) :
    (∃ e, decodeClassE w = .error e) ↔ fieldKK w ∉ ([0x9E, 0xA1] : List Byte) := by
  rw [decodeClassE]
  split_ifs <;> simp_all

theorem decodeClassF_error_iff (w : Word) :
    (∃ e, decodeClassF w = .error e) ↔
      fieldKK w ∉ ([0x07, 0x0A, 0x15, 0x18, 0x1E, 0x29, 0x33, 0x55, 0x65] : List Byte) := by
  rw [decodeClassF]
  split_ifs <;> simp_all

/-- Settles O9: by the class of the word. -/
theorem unknownWordsByClass : Obligations.UnknownWordsByClass := by
  intro w
  rw [← decodeClass8_error_iff, ← decodeClassE_error_iff, ← decodeClassF_error_iff, decode]
  generalize fieldC w = c
  fin_cases c <;> simp [ite_eq_iff]

/-! ### The rows that select a word -/

/-- Every form's row is one of the 35 of the opcode map. -/
theorem row_mem_opcodeRows (i : Instr) : i.row ∈ opcodeRows := by
  cases i <;> simp [Instr.row, opcodeRows, opcodeRowsA, opcodeRowsB, opcodeRowsC]

theorem row_selects_encode : ∀ i : Instr, i.row.Selects (encode i)
  | .cls => Laws.RowMatch.cls
  | .ret => Laws.RowMatch.ret
  | .sys nnn => Laws.RowMatch.sys nnn
  | .jp nnn => Laws.RowMatch.jp nnn
  | .call nnn => Laws.RowMatch.call nnn
  | .seImm x kk => Laws.RowMatch.seImm x kk
  | .sneImm x kk => Laws.RowMatch.sneImm x kk
  | .seReg x y => Laws.RowMatch.seReg x y
  | .ldImm x kk => Laws.RowMatch.ldImm x kk
  | .addImm x kk => Laws.RowMatch.addImm x kk
  | .ldReg x y => Laws.RowMatch.ldReg x y
  | .orReg x y => Laws.RowMatch.orReg x y
  | .andReg x y => Laws.RowMatch.andReg x y
  | .xorReg x y => Laws.RowMatch.xorReg x y
  | .addReg x y => Laws.RowMatch.addReg x y
  | .subReg x y => Laws.RowMatch.subReg x y
  | .shrReg x y => Laws.RowMatch.shrReg x y
  | .subnReg x y => Laws.RowMatch.subnReg x y
  | .shlReg x y => Laws.RowMatch.shlReg x y
  | .sneReg x y => Laws.RowMatch.sneReg x y
  | .ldI nnn => Laws.RowMatch.ldI nnn
  | .jpV0 nnn => Laws.RowMatch.jpV0 nnn
  | .rnd x kk => Laws.RowMatch.rnd x kk
  | .drw x y n => Laws.RowMatch.drw x y n
  | .skp x => Laws.RowMatch.skp x
  | .sknp x => Laws.RowMatch.sknp x
  | .ldVxDt x => Laws.RowMatch.ldVxDt x
  | .ldVxK x => Laws.RowMatch.ldVxK x
  | .ldDtVx x => Laws.RowMatch.ldDtVx x
  | .ldStVx x => Laws.RowMatch.ldStVx x
  | .addIVx x => Laws.RowMatch.addIVx x
  | .ldFVx x => Laws.RowMatch.ldFVx x
  | .ldBVx x => Laws.RowMatch.ldBVx x
  | .storeRegs x => Laws.RowMatch.storeRegs x
  | .loadRegs x => Laws.RowMatch.loadRegs x

/-- The row of the decoded instruction selects the word. -/
theorem row_selects_of_decode {w : Word} {i : Instr} (h : decode w = .ok i) : i.row.Selects w := by
  obtain ⟨_, hw⟩ := decodedWordIsTheEncoding w i h
  exact hw ▸ row_selects_encode i

/-- Where a row fixes the bits of a mask m, a word it selects has them as the row's pattern has. -/
theorem and_eq_of_selects {r : OpcodeRow} {w m : Word} (h : r.Selects w) (hm : r.mask &&& m = m) :
    w &&& m = r.pattern &&& m := by
  have h : w &&& r.mask = r.pattern := h
  rw [← h, BitVec.and_assoc, hm]

theorem fieldC_eq_of_and {w v : Word} (h : w &&& 0xF000 = v &&& 0xF000) : fieldC w = fieldC v := by
  rw [and_F000, and_F000, ← BitVec.toNat_inj, BitVec.toNat_ofNat, BitVec.toNat_ofNat] at h
  exact Fin.ext (by omega)

theorem fieldN_eq_of_and {w v : Word} (h : w &&& 0xF00F = v &&& 0xF00F) : fieldN w = fieldN v := by
  rw [and_F00F, and_F00F, ← BitVec.toNat_inj, BitVec.toNat_ofNat, BitVec.toNat_ofNat] at h
  exact Fin.ext (by omega)

theorem fieldKK_eq_of_and {w v : Word} (h : w &&& 0xF0FF = v &&& 0xF0FF) : fieldKK w = fieldKK v := by
  rw [and_F0FF, and_F0FF, ← BitVec.toNat_inj, BitVec.toNat_ofNat, BitVec.toNat_ofNat] at h
  have hw := (fieldKK w).isLt
  have hv := (fieldKK v).isLt
  exact BitVec.eq_of_toNat_eq (by omega)

/-- Every row fixes the class. -/
theorem opcodeRows_fix_class : ∀ r ∈ opcodeRows, r.mask &&& 0xF000 = 0xF000 := by decide

theorem opcodeRows_class5 : ∀ r ∈ opcodeRows, fieldC r.pattern = 0x5 →
    r.mask &&& 0xF00F = 0xF00F ∧ fieldN r.pattern = 0 := by decide

theorem opcodeRows_class8 : ∀ r ∈ opcodeRows, fieldC r.pattern = 0x8 →
    r.mask &&& 0xF00F = 0xF00F ∧ fieldN r.pattern ∉ ([0x8, 0x9, 0xA, 0xB, 0xC, 0xD, 0xF] : List Nibble) := by decide

theorem opcodeRows_class9 : ∀ r ∈ opcodeRows, fieldC r.pattern = 0x9 →
    r.mask &&& 0xF00F = 0xF00F ∧ fieldN r.pattern = 0 := by decide

theorem opcodeRows_classE : ∀ r ∈ opcodeRows, fieldC r.pattern = 0xE →
    r.mask &&& 0xF0FF = 0xF0FF ∧ fieldKK r.pattern ∈ ([0x9E, 0xA1] : List Byte) := by decide

theorem opcodeRows_classF : ∀ r ∈ opcodeRows, fieldC r.pattern = 0xF → r.mask &&& 0xF0FF = 0xF0FF ∧
    fieldKK r.pattern ∈ ([0x07, 0x0A, 0x15, 0x18, 0x1E, 0x29, 0x33, 0x55, 0x65] : List Byte) := by decide

/-- No row selects an unknown word: it would have the class of the word, and in that class the sub-opcode, too. -/
theorem not_selects_of_unknown {w : Word} {e : DecodeReject} (h : decode w = .error e) :
    ∀ r ∈ opcodeRows, ¬ r.Selects w := by
  intro r hr hsel
  have hclass : fieldC r.pattern = fieldC w :=
    (fieldC_eq_of_and (and_eq_of_selects hsel (opcodeRows_fix_class r hr))).symm
  rcases (unknownWordsByClass w).1 ⟨e, h⟩ with ⟨hc, hn⟩ | ⟨hc, hn⟩ | ⟨hc, hn⟩ | ⟨hc, hkk⟩ | ⟨hc, hkk⟩
  · obtain ⟨hmask, hp⟩ := opcodeRows_class5 r hr (hclass.trans hc)
    exact hn (fieldN_eq_of_and (and_eq_of_selects hsel hmask) ▸ hp)
  · obtain ⟨hmask, hp⟩ := opcodeRows_class8 r hr (hclass.trans hc)
    exact hp (fieldN_eq_of_and (and_eq_of_selects hsel hmask) ▸ hn)
  · obtain ⟨hmask, hp⟩ := opcodeRows_class9 r hr (hclass.trans hc)
    exact hn (fieldN_eq_of_and (and_eq_of_selects hsel hmask) ▸ hp)
  · obtain ⟨hmask, hp⟩ := opcodeRows_classE r hr (hclass.trans hc)
    exact hkk (fieldKK_eq_of_and (and_eq_of_selects hsel hmask) ▸ hp)
  · obtain ⟨hmask, hp⟩ := opcodeRows_classF r hr (hclass.trans hc)
    exact hkk (fieldKK_eq_of_and (and_eq_of_selects hsel hmask) ▸ hp)

theorem decodes_iff_selected (w : Word) : (∃ i, decode w = .ok i) ↔ ∃ r ∈ opcodeRows, r.Selects w := by
  constructor
  · rintro ⟨i, h⟩
    exact ⟨i.row, row_mem_opcodeRows i, row_selects_of_decode h⟩
  · rintro ⟨r, hr, hsel⟩
    cases h : decode w with
    | ok i => exact ⟨i, rfl⟩
    | error e => exact absurd hsel (not_selects_of_unknown h r hr)

/-- Two rows whose patterns agree on what both fix are the row of SYS and the row of CLS or RET. -/
theorem opcodeRows_overlap : ∀ r ∈ opcodeRows, ∀ q ∈ opcodeRows, r ≠ q →
    r.pattern &&& q.mask = q.pattern &&& r.mask →
    (r = ⟨0x0000, 0xF000⟩ ∧ (q = ⟨0x00E0, 0xFFFF⟩ ∨ q = ⟨0x00EE, 0xFFFF⟩)) ∨
    (q = ⟨0x0000, 0xF000⟩ ∧ (r = ⟨0x00E0, 0xFFFF⟩ ∨ r = ⟨0x00EE, 0xFFFF⟩)) := by decide

/-- A row that fixes every bit selects its pattern alone. -/
theorem eq_of_selects_fullMask {p w : Word} (h : (⟨p, 0xFFFF⟩ : OpcodeRow).Selects w) : w = p :=
  (BitVec.and_allOnes (x := w)).symm.trans h

/-- Settles O8: the row of a decoded instruction selects the word, an unknown word is selected by no row, and two rows
that select one word agree on the bits that both fix. -/
theorem decoderFollowsTheOpcodeMap : Obligations.DecoderFollowsTheOpcodeMap := by
  refine ⟨decodes_iff_selected, fun w i h => ⟨row_mem_opcodeRows i, row_selects_of_decode h⟩,
    fun w r q hr hq hrw hqw hne => ?_, decode_word_cls, decode_word_ret⟩
  have hagree : r.pattern &&& q.mask = q.pattern &&& r.mask := by
    have hrw : w &&& r.mask = r.pattern := hrw
    have hqw : w &&& q.mask = q.pattern := hqw
    rw [← hrw, ← hqw, BitVec.and_assoc, BitVec.and_assoc, BitVec.and_comm r.mask]
  rcases opcodeRows_overlap r hr q hq hne hagree with ⟨hsys, rfl | rfl⟩ | ⟨hsys, rfl | rfl⟩
  · exact ⟨.inl (eq_of_selects_fullMask hqw), .inl hsys⟩
  · exact ⟨.inr (eq_of_selects_fullMask hqw), .inl hsys⟩
  · exact ⟨.inl (eq_of_selects_fullMask hrw), .inr hsys⟩
  · exact ⟨.inr (eq_of_selects_fullMask hrw), .inr hsys⟩

/-! ### A step on an unknown word -/

/-- An execute emits at most the event of its own address and word, and none while the core is faulted. -/
theorem executeEvent_eq (s : State) : s.executeEvent = none ∨ s.executeEvent = some ⟨s.pc, s.fetchWord⟩ := by
  rw [State.executeEvent]
  split
  · exact .inr rfl
  · exact .inl rfl

theorem step_of_decode_error {s : State} {e : DecodeReject} (hf : s.fault = .none)
    (h : decode s.fetchWord = .error e) : step s = .next s.advance := by
  rw [step, if_pos hf, h]

theorem step_of_decode_ok {s : State} {i : Instr} (hf : s.fault = .none)
    (h : decode s.fetchWord = .ok i) : step s = exec i s.advance := by
  rw [step, if_pos hf, h]

/-- Settles O4: a word that no row selects does not decode, so the step only advances pc. -/
theorem unknownOpcodeIsANoOp : Obligations.UnknownOpcodeIsANoOp := by
  intro s hf hrows
  refine ⟨?_, executeEvent_eq s⟩
  cases h : decode s.fetchWord with
  | ok i => exact absurd (row_selects_of_decode h) (hrows i.row (row_mem_opcodeRows i))
  | error e => exact step_of_decode_error hf h

/-! ### Sample words and SYS -/

/-- Settles O10: each word is decoded from its bits. -/
theorem sampleWordsDecode : Obligations.SampleWordsDecode := by
  unfold Obligations.SampleWordsDecode
  decide

/-- Settles O17: the words of class 0 but 00E0 and 00EE are SYS, whose meaning is the state itself. -/
theorem sysIsANoOp : Obligations.SysIsANoOp := by
  intro s nnn
  exact ⟨fun hcls hret => decode_addrWord_sys ⟨hcls, hret⟩, rfl⟩

end Sys2Proof.Machine
end

section
/-! Which parts of the state an instruction, a step and a transaction may write (10_state.md R33, R34), said once, and the
statements on writers that follow (20_memory.md, 45_display.md R145, 47_timers.md R163, 60_exceptions.md R204). -/

namespace Sys2Proof

/-- The parts of the state that an instruction may write in its execute phase, after the fetch's own write of pc
(30_encoding.md R82). -/
def Instr.writes : Instr → List Machine.Part
  | .sys _ => []
  | .jp _ | .jpV0 _ | .seImm _ _ | .sneImm _ _ | .seReg _ _ | .sneReg _ _ => [.pc]
  | .call _ => [.stack, .sp, .pc, .fault]
  | .ret => [.sp, .pc, .fault]
  | .ldImm _ _ | .addImm _ _ | .ldReg _ _ | .orReg _ _ | .andReg _ _ | .xorReg _ _ | .addReg _ _ | .subReg _ _
  | .shrReg _ _ | .subnReg _ _ | .shlReg _ _ | .ldVxDt _ => [.regs]
  | .ldI _ | .addIVx _ | .ldFVx _ => [.index]
  | .rnd _ _ => [.regs, .random]
  | .cls => [.display]
  | .drw _ _ _ => [.display, .regs]
  | .skp _ | .sknp _ => [.pc, .fault]
  | .ldVxK _ => [.regs, .pc]
  | .ldDtVx _ => [.delay]
  | .ldStVx _ => [.sound]
  | .ldBVx _ => [.memory]
  | .storeRegs _ => [.memory, .index]
  | .loadRegs _ => [.regs, .index]

end Sys2Proof

namespace Sys2Proof.Machine

/-- The parts of the state that a transaction other than reset and execute may write (10_state.md R34). -/
def Transaction.writes : Transaction → List Part
  | .loadProgram _ => [.memory]
  | .setKey _ _ => [.keys]
  | .tickTimers => [.delay, .sound]
  | .reset | .execute _ | .getDisplay | .getDisplayPixel _ _ | .getFault => []

/-! ### Frames of the remaining updates -/

theorem State.SamePart.refl (s : State) (p : Part) : s.SamePart s p := by
  cases p with
  | regs | keys | memory => exact fun _ => rfl
  | display => exact fun _ _ => rfl
  | random => exact ⟨rfl, rfl⟩
  | index | pc | stack | sp | delay | sound | fault | params => rfl

theorem State.OnlyChanges.refl (s : State) (ps : List Part) : s.OnlyChanges s ps := fun p _ => .refl s p

/-- A frame may be named more widely than it is. -/
theorem State.OnlyChanges.mono {s t : State} {ps qs : List Part} (h : s.OnlyChanges t ps) (hsub : ps ⊆ qs) :
    s.OnlyChanges t qs := fun p hp => h p fun hps => hp (hsub hps)

theorem State.onlyChanges_setMem (s : State) (m : Memory) : s.OnlyChanges { s with mem := m } [.memory] := by
  intro p hp
  cases p with
  | memory => exact absurd (List.mem_singleton.2 rfl) hp
  | random => exact ⟨rfl, rfl⟩
  | regs | keys => exact fun _ => rfl
  | display => exact fun _ _ => rfl
  | index | pc | stack | sp | delay | sound | fault | params => rfl

theorem State.onlyChanges_setRegs (s : State) (v : Vector Byte 16) : s.OnlyChanges { s with V := v } [.regs] := by
  intro p hp
  cases p with
  | regs => exact absurd (List.mem_singleton.2 rfl) hp
  | random => exact ⟨rfl, rfl⟩
  | keys | memory => exact fun _ => rfl
  | display => exact fun _ _ => rfl
  | index | pc | stack | sp | delay | sound | fault | params => rfl

theorem State.onlyChanges_setStack (s : State) (l : List Word) : s.OnlyChanges { s with stack := l } [.stack] := by
  intro p hp
  cases p with
  | stack => exact absurd (List.mem_singleton.2 rfl) hp
  | random => exact ⟨rfl, rfl⟩
  | regs | keys | memory => exact fun _ => rfl
  | display => exact fun _ _ => rfl
  | index | pc | sp | delay | sound | fault | params => rfl

theorem State.onlyChanges_setSp (s : State) (n : Nat) : s.OnlyChanges { s with sp := n } [.sp] := by
  intro p hp
  cases p with
  | sp => exact absurd (List.mem_singleton.2 rfl) hp
  | random => exact ⟨rfl, rfl⟩
  | regs | keys | memory => exact fun _ => rfl
  | display => exact fun _ _ => rfl
  | index | pc | stack | delay | sound | fault | params => rfl

theorem State.onlyChanges_setSpPc (s : State) (n : Nat) (v : Word) :
    s.OnlyChanges { s with sp := n, pc := v } [.sp, .pc] :=
  (s.onlyChanges_setSp n).trans (State.onlyChanges_setPc _ v)

theorem State.onlyChanges_setStackSpPc (s : State) (l : List Word) (n : Nat) (v : Word) :
    s.OnlyChanges { s with stack := l, sp := n, pc := v } [.stack, .sp, .pc] :=
  (s.onlyChanges_setStack l).trans (State.onlyChanges_setSpPc _ n v)

/-- The model's own source of random bytes stands apart from every other part (log 6). -/
theorem State.onlyChanges_setRandom (s : State) (b : Byte) (n : Nat) :
    s.OnlyChanges { s with rnd := b, draws := n } [.random] := by
  intro p hp
  cases p with
  | random => exact absurd (List.mem_singleton.2 rfl) hp
  | regs | keys | memory => exact fun _ => rfl
  | display => exact fun _ _ => rfl
  | index | pc | stack | sp | delay | sound | fault | params => rfl

theorem State.onlyChanges_setFault (s : State) (f : FaultStatus) : s.OnlyChanges (s.setFault f) [.fault] := by
  intro p hp
  cases p with
  | fault => exact absurd (List.mem_singleton.2 rfl) hp
  | _ => simp [State.SamePart]

/-- Fault entry is precise (60_exceptions.md R202): it changes pc and the fault alone. -/
theorem State.onlyChanges_raiseFault (s : State) (f : FaultStatus) : s.OnlyChanges (s.raiseFault f) [.pc, .fault] :=
  (s.onlyChanges_setPc s.a0).trans (State.onlyChanges_setFault _ f)

theorem State.onlyChanges_setKey (s : State) (k : Nibble) (pressed : Bool) :
    s.OnlyChanges (s.setKey k pressed) [.keys] := by
  intro p hp
  cases p with
  | keys => exact absurd (List.mem_singleton.2 rfl) hp
  | _ => simp [State.SamePart]

theorem State.onlyChanges_writeBytes (s : State) (a : Nat) (bs : List Byte) :
    s.OnlyChanges (s.writeBytes a bs) [.memory] := by
  obtain ⟨m, hm, _⟩ := s.writeBytes_only_memory a bs
  exact hm ▸ s.onlyChanges_setMem m

theorem State.onlyChanges_tickTimers (s : State) : s.OnlyChanges s.tickTimers [.delay, .sound] :=
  (s.onlyChanges_setDT _).trans (State.onlyChanges_setST _ _)

/-! ### What an instruction writes -/

/-- An instruction changes at most the parts of `Instr.writes`. -/
theorem Effect.onlyChanges {i : Instr} {s t : State} (h : Effect i s t) : s.OnlyChanges t i.writes := by
  cases i with
  | sys => subst h; exact .refl t []
  | jp | jpV0 | seImm | sneImm | seReg | sneReg => obtain ⟨p, rfl⟩ := h; exact s.onlyChanges_setPc p
  | call =>
    obtain ⟨_, rfl⟩ | ⟨_, _, p, rfl⟩ := h
    · exact (s.onlyChanges_raiseFault _).mono (by simp [Instr.writes])
    · exact (s.onlyChanges_setStackSpPc _ _ p).mono (by simp [Instr.writes])
  | ret =>
    obtain ⟨_, rfl⟩ | ⟨_, p, rfl⟩ := h
    · exact (s.onlyChanges_raiseFault _).mono (by simp [Instr.writes])
    · exact (s.onlyChanges_setSpPc _ p).mono (by simp [Instr.writes])
  | ldImm x | addImm x | ldReg x | orReg x | andReg x | xorReg x | ldVxDt x =>
    obtain ⟨v, rfl⟩ := h
    exact s.onlyChanges_setV x v
  | addReg x | subReg x | shrReg x | subnReg x | shlReg x =>
    obtain ⟨v, f, rfl⟩ := h
    exact s.onlyChanges_setVThenFlag x v f
  | ldI | addIVx | ldFVx => obtain ⟨v, rfl⟩ := h; exact s.onlyChanges_setI v
  | rnd x =>
    obtain ⟨v, rfl⟩ := h
    exact (s.onlyChanges_setV x v).trans (State.onlyChanges_setRandom _ _ _)
  | cls => subst h; exact s.onlyChanges_setDisplay Display.clear
  | drw =>
    obtain ⟨d, v, rfl⟩ := h
    exact (s.onlyChanges_setDisplay d).trans (State.onlyChanges_setV _ flagReg v)
  | skp | sknp =>
    obtain ⟨c, rfl⟩ | ⟨_, _, rfl⟩ := h
    · exact (s.onlyChanges_skipIf c).mono (by simp [Instr.writes])
    · exact s.onlyChanges_raiseFault .keyIndexRange
  | ldVxK x =>
    obtain ⟨v, rfl⟩ | ⟨_, rfl⟩ := h
    · exact (s.onlyChanges_setV x v).mono (by simp [Instr.writes])
    · exact (s.onlyChanges_setPc s.a0).mono (by simp [Instr.writes])
  | ldDtVx => obtain ⟨v, rfl⟩ := h; exact s.onlyChanges_setDT v
  | ldStVx => obtain ⟨v, rfl⟩ := h; exact s.onlyChanges_setST v
  | ldBVx => obtain ⟨m, _, rfl⟩ := h; exact s.onlyChanges_setMem m
  | storeRegs =>
    obtain ⟨m, v, _, _, rfl⟩ := h
    exact (s.onlyChanges_setMem m).trans (State.onlyChanges_setI _ v)
  | loadRegs =>
    obtain ⟨r, v, _, _, rfl⟩ := h
    exact (s.onlyChanges_setRegs r).trans (State.onlyChanges_setI _ v)

/-! ### What a step and a transaction write -/

/-- Whether the execute of a state runs an instruction that may write the part p. -/
def State.RunsWriter (s : State) (p : Part) : Prop :=
  s.fault = .none ∧ ∃ i, decode s.fetchWord = .ok i ∧ p ∈ i.writes

/-- A step leaves every part but pc alone, unless it runs an instruction that writes it. -/
theorem step_samePart {s t : State} {p : Part} (h : step s = .next t) (hpc : p ≠ .pc) :
    s.SamePart t p ∨ s.RunsWriter p := by
  have hadvance : s.SamePart s.advance p := s.onlyChanges_setPc _ p (List.mem_singleton.not.2 hpc)
  obtain ⟨_, rfl⟩ | ⟨_, _, rfl⟩ | ⟨hf, i, hi, hexec⟩ := step_cases h
  · exact .inl (.refl t p)
  · exact .inl hadvance
  · by_cases hp : p ∈ i.writes
    · exact .inr ⟨hf, i, hi, hp⟩
    · exact .inl (hadvance.trans ((exec_effect hexec).onlyChanges p hp))

/-- An `execute` transaction, as a step, and it gives the model's own source of bytes back. -/
theorem executeWith_samePart {s u : State} {b : Byte} {r : Response} {p : Part}
    (h : s.executeWith b = .next (u, r)) (hpc : p ≠ .pc) : s.SamePart u p ∨ s.RunsWriter p := by
  obtain ⟨_, t, ht, rfl⟩ := executeWith_cases h
  by_cases hr : p = .random
  · subst hr; exact .inl ⟨rfl, rfl⟩
  · have hrandom (v : State) (c : Byte) (n : Nat) : v.SamePart { v with rnd := c, draws := n } p :=
      v.onlyChanges_setRandom c n p (List.mem_singleton.not.2 hr)
    refine (step_samePart ht hpc).imp (fun hst => ?_) id
    exact ((hrandom s b s.draws).trans hst).trans (hrandom t s.rnd s.draws)

/-- A transaction leaves every part but pc alone, unless it is reset, or writes the part as a host port, or executes an
instruction that writes it. -/
theorem transact_samePart {s u : State} {tr : Transaction} {r : Response} {p : Part}
    (h : transact s tr = .next (u, r)) (hpc : p ≠ .pc) :
    s.SamePart u p ∨ tr = .reset ∨ p ∈ tr.writes ∨ ((∃ b, tr = .execute b) ∧ s.RunsWriter p) := by
  have hport (hframe : s.OnlyChanges u tr.writes) :
      s.SamePart u p ∨ tr = .reset ∨ p ∈ tr.writes ∨ ((∃ b, tr = .execute b) ∧ s.RunsWriter p) := by
    by_cases hp : p ∈ tr.writes
    · exact .inr (.inr (.inl hp))
    · exact .inl (hframe p hp)
  cases tr with
  | reset => exact .inr (.inl rfl)
  | execute b =>
    exact (executeWith_samePart h hpc).imp id fun hw => .inr (.inr ⟨⟨b, rfl⟩, hw⟩)
  | loadProgram bytes =>
    apply hport
    rw [transact, State.loadProgram] at h
    split at h <;> cases h
    · exact .refl s _
    · exact s.onlyChanges_writeBytes programBase bytes
  | setKey k pressed =>
    apply hport
    rw [transact, State.hostSetKey] at h
    split at h <;> cases h
    · exact s.onlyChanges_setKey _ pressed
    · exact .refl s _
  | tickTimers => apply hport; cases h; exact s.onlyChanges_tickTimers
  | getDisplay | getDisplayPixel | getFault => apply hport; cases h; exact .refl s _

/-! ### The statements on writers -/

/-- The display is its pixels. -/
theorem State.display_eq_of_samePart {s t : State} (h : s.SamePart t .display) : t.display = s.display :=
  Vector.ext fun y hy => Vector.ext fun x hx => h ⟨x, hx⟩ ⟨y, hy⟩

/-- Settles O46: of the instructions only CLS and DRW write the display, and no host port does. -/
theorem onlyDrawingWritesTheDisplay : Obligations.OnlyDrawingWritesTheDisplay := by
  intro s u tr r h hne
  rcases transact_samePart h (p := .display) nofun with hsame | hreset | hport | ⟨hexecute, _, i, hi, hw⟩
  · exact absurd (State.display_eq_of_samePart hsame) hne
  · exact .inl hreset
  · cases tr <;> simp [Transaction.writes] at hport
  · refine .inr ⟨hexecute, ?_⟩
    cases i with
    | cls => exact .inl hi
    | drw x y n => exact .inr ⟨x, y, n, hi⟩
    | _ => simp [Instr.writes] at hw

/-- Of the host ports only tick_timers writes a timer (47_timers.md R164). -/
theorem eq_tickTimers_of_writes {tr : Transaction} (h : Part.delay ∈ tr.writes ∨ Part.sound ∈ tr.writes) :
    tr = .tickTimers := by
  cases tr with
  | tickTimers => rfl
  | _ => simp [Transaction.writes] at h

/-- Settles O48: of the instructions only FX15 writes DT and only FX18 writes ST, and of the host ports tick_timers both. -/
theorem onlyTimerInstructionsAndTheHostWriteTimers : Obligations.OnlyTimerInstructionsAndTheHostWriteTimers := by
  intro s u tr r h
  constructor <;> intro hne
  · rcases transact_samePart h (p := .delay) nofun with hsame | hreset | hport | ⟨hexecute, _, i, hi, hw⟩
    · exact absurd hsame hne
    · exact .inl hreset
    · exact .inr (.inl (eq_tickTimers_of_writes (.inl hport)))
    · cases i with
      | ldDtVx x => exact .inr (.inr ⟨hexecute, x, hi⟩)
      | _ => simp [Instr.writes] at hw
  · rcases transact_samePart h (p := .sound) nofun with hsame | hreset | hport | ⟨hexecute, _, i, hi, hw⟩
    · exact absurd hsame hne
    · exact .inl hreset
    · exact .inr (.inl (eq_tickTimers_of_writes (.inr hport)))
    · cases i with
      | ldStVx x => exact .inr (.inr ⟨hexecute, x, hi⟩)
      | _ => simp [Instr.writes] at hw

/-- Settles O49: of the instructions only CALL writes the stack, and only CALL and RET write sp. -/
theorem onlyCallAndReturnWriteTheStack : Obligations.OnlyCallAndReturnWriteTheStack := by
  intro s t h
  constructor <;> intro hne
  · obtain hsame | ⟨_, i, hi, hw⟩ := step_samePart h (p := .stack) nofun
    · exact absurd hsame hne
    · cases i with
      | call nnn => exact ⟨nnn, hi⟩
      | _ => simp [Instr.writes] at hw
  · obtain hsame | ⟨_, i, hi, hw⟩ := step_samePart h (p := .sp) nofun
    · exact absurd hsame hne
    · cases i with
      | call nnn => exact .inl ⟨nnn, hi⟩
      | ret => exact .inr hi
      | _ => simp [Instr.writes] at hw

/-- A loaded image ends inside the 4096 bytes, so it stores at 0x200 and above. -/
theorem readByte_loadProgram_below (s : State) (bytes : List Byte) {a : Nat} (ha : a % 4096 < 0x200) :
    (s.loadProgram bytes).1.readByte a = s.readByte a := by
  rw [State.loadProgram]
  split
  · rfl
  · next hlen =>
    refine s.readByte_writeBytes_outside programBase a bytes fun k hk => ?_
    simp only [programMax, programBase] at hlen ⊢
    omega

/-- Settles O51: of the instructions only FX33 and FX55 write memory, and of the host ports only load_program does, which
stores nothing below 0x200. -/
theorem onlyStoresWriteMemory : Obligations.OnlyStoresWriteMemory := by
  constructor
  · intro s t a h hne
    obtain hsame | ⟨_, i, hi, hw⟩ := step_samePart h (p := .memory) nofun
    · exact absurd (hsame a) hne
    · cases i with
      | ldBVx x => exact ⟨x, .inl hi⟩
      | storeRegs x => exact ⟨x, .inr hi⟩
      | _ => simp [Instr.writes] at hw
  · intro s u tr r a h hne
    rcases transact_samePart h (p := .memory) nofun with hsame | hreset | hport | ⟨hexecute, _⟩
    · exact absurd (hsame a) hne
    · exact .inl hreset
    · cases tr with
      | loadProgram bytes =>
        have hu : (s.loadProgram bytes).1 = u := congrArg Prod.fst (Host.Outcome.next.inj h)
        refine .inr (.inr ⟨Nat.le_of_not_lt fun ha => hne ?_, bytes, rfl⟩)
        rw [← hu, readByte_loadProgram_below s bytes ha]
      | _ => simp [Transaction.writes] at hport
    · exact .inr (.inl hexecute)

end Sys2Proof.Machine
end

section
/-! Statements about every step: the faulted core, where pc ends, precise faults, the writers of I and VF, and the fixed
points of a step (30_encoding.md R82, 60_exceptions.md R201 to R204, 70_reset_and_hazards.md R234). -/

namespace Sys2Proof

/-- The V registers that an instruction may write. -/
def Instr.WritesReg (z : Nibble) : Instr → Prop
  | .ldImm x _ | .addImm x _ | .ldReg x _ | .orReg x _ | .andReg x _ | .xorReg x _ | .rnd x _ | .ldVxDt x
  | .ldVxK x => z = x
  | .addReg x _ | .subReg x _ | .shrReg x _ | .subnReg x _ | .shlReg x _ => z = x ∨ z = Machine.flagReg
  | .drw _ _ _ => z = Machine.flagReg
  | .loadRegs x => z ≤ x
  | .cls | .ret | .sys _ | .jp _ | .call _ | .seImm _ _ | .sneImm _ _ | .seReg _ _ | .sneReg _ _ | .ldI _ | .jpV0 _
  | .skp _ | .sknp _ | .ldDtVx _ | .ldStVx _ | .addIVx _ | .ldFVx _ | .ldBVx _ | .storeRegs _ => False

end Sys2Proof

namespace Sys2Proof.Machine

/-! ### The faulted core -/

theorem step_of_faulted {s : State} (hf : s.fault ≠ .none) : step s = .next s := by
  rw [step, if_neg hf]

theorem executeEvent_of_faulted {s : State} (hf : s.fault ≠ .none) : s.executeEvent = none := by
  rw [State.executeEvent, if_neg fun h => hf h.1]

/-- What an `execute` answers is the step on the host's byte, with the model's own source of bytes given back. -/
theorem transact_execute_of_step {s t : State} {b : Byte} (h : step { s with rnd := b } = .next t) :
    transact s (.execute b) = .next ({ t with rnd := s.rnd, draws := s.draws }, .executed s.executeEvent) := by
  rw [transact, State.executeWith, h]

theorem transact_execute_of_faulted {s : State} (hf : s.fault ≠ .none) (b : Byte) :
    transact s (.execute b) = .next (s, .executed none) := by
  have hstep : step { s with rnd := b } = .next { s with rnd := b } := step_of_faulted hf
  rw [transact_execute_of_step hstep, executeEvent_of_faulted hf]

/-- Settles O5: a faulted core runs no instruction, and no host port but reset writes the fault. -/
theorem faultedCoreExecutesNothing : Obligations.FaultedCoreExecutesNothing := by
  refine fun s hf => ⟨step_of_faulted hf, transact_execute_of_faulted hf, fun tr u r hne h => ?_⟩
  rcases transact_samePart h (p := .fault) nofun with hsame | hreset | hport | ⟨_, hnone, _⟩
  · exact hsame
  · exact absurd hreset hne
  · cases tr <;> simp [Transaction.writes] at hport
  · exact absurd hnone hf

/-! ### Where pc ends -/

theorem toNat_pc_add_two (a : Word) : (a + 2).toNat = (a.toNat + 2) % 65536 :=
  BitVec.toNat_add a 2

/-- An instruction that does not write pc leaves it where the fetch put it. -/
theorem step_pc_of_not_writes {s t : State} {i : Instr} (hf : s.fault = .none) (hi : decode s.fetchWord = .ok i)
    (h : step s = .next t) (hpc : Part.pc ∉ i.writes) : t.pc = s.pc + 2 := by
  rw [step_of_decode_ok hf hi] at h
  have hsame : t.pc = s.advance.pc := (exec_effect h).onlyChanges .pc hpc
  exact hsame

/-- Settles O44: the forms that write pc are the excluded ones. -/
theorem otherInstructionsAdvancePcByTwo : Obligations.OtherInstructionsAdvancePcByTwo := by
  intro s t i hf hi h hjump hret hskipImm hskipReg hkey
  have hpc : Part.pc ∉ i.writes := by
    cases i with
    | jp nnn => exact absurd rfl (hjump nnn).1
    | call nnn => exact absurd rfl (hjump nnn).2.1
    | jpV0 nnn => exact absurd rfl (hjump nnn).2.2
    | ret => exact absurd rfl hret
    | seImm x kk => exact absurd rfl (hskipImm x kk).1
    | sneImm x kk => exact absurd rfl (hskipImm x kk).2
    | seReg x y => exact absurd rfl (hskipReg x y).1
    | sneReg x y => exact absurd rfl (hskipReg x y).2
    | skp x => exact absurd rfl (hkey x).1
    | sknp x => exact absurd rfl (hkey x).2.1
    | ldVxK x => exact absurd rfl (hkey x).2.2
    | _ => simp [Instr.writes]
  rw [step_pc_of_not_writes hf hi h hpc, toNat_pc_add_two]

/-! ### Precise faults -/

/-- From the execute phase, a fault entry goes back to the instruction, so of the whole step it leaves only the code. -/
theorem State.advance_raiseFault (s : State) (f : FaultStatus) : s.advance.raiseFault f = s.setFault f := by
  rw [State.raiseFault, State.advance_a0]
  rfl

/-- Settles O45: only CALL, RET, SKP and SKNP write the fault, and where one ends faulted it has entered its own code. -/
theorem faultEntryIsPrecise : Obligations.FaultEntryIsPrecise := by
  intro s t hf h hfault
  obtain hsame | ⟨_, i, hi, hw⟩ := step_samePart h (p := .fault) nofun
  · exact absurd (Eq.trans hsame hf) hfault
  rw [step_of_decode_ok hf hi] at h
  have heffect := exec_effect h
  cases i with
  | call nnn =>
    obtain ⟨hsp, rfl⟩ | ⟨_, _, _, rfl⟩ := heffect
    · rw [State.advance_raiseFault]
      exact ⟨rfl, .inl ⟨rfl, hsp, nnn, hi⟩⟩
    · exact absurd hf hfault
  | ret =>
    obtain ⟨hsp, rfl⟩ | ⟨_, _, rfl⟩ := heffect
    · rw [State.advance_raiseFault]
      exact ⟨rfl, .inr (.inl ⟨rfl, hsp, hi⟩)⟩
    · exact absurd hf hfault
  | skp x | sknp x =>
    obtain ⟨c, rfl⟩ | ⟨hpolicy, hx, rfl⟩ := heffect
    · exact absurd ((s.advance.skipIf_fault c).trans hf) hfault
    · rw [State.advance_raiseFault]
      exact ⟨rfl, .inr (.inr ⟨rfl, hpolicy, x, hx, by simp [hi]⟩)⟩
  | _ => simp [Instr.writes] at hw

/-! ### Writers of I -/

theorem blockTransferIMode_eq_advance {mode : BlockTransferIMode} (h : mode ≠ .keep) : mode = .advance := by
  cases mode with
  | keep => exact absurd rfl h
  | advance => rfl

/-- Settles O50: five instructions may write I, and under KEEP the two block transfers leave it. -/
theorem onlyIndexInstructionsWriteI : Obligations.OnlyIndexInstructionsWriteI := by
  intro s t h hne
  obtain hsame | ⟨hf, i, hi, hw⟩ := step_samePart h (p := .index) nofun
  · exact absurd hsame hne
  rw [step_of_decode_ok hf hi] at h
  have heffect := exec_effect h
  cases i with
  | ldI nnn => exact .inl ⟨nnn, hi⟩
  | addIVx x => exact .inr (.inl ⟨x, hi⟩)
  | ldFVx x => exact .inr (.inr (.inl ⟨x, hi⟩))
  | storeRegs x | loadRegs x =>
    obtain ⟨_, _, _, hkeep, rfl⟩ := heffect
    exact .inr (.inr (.inr ⟨blockTransferIMode_eq_advance fun hmode => hne (hkeep hmode), x, by simp [hi]⟩))
  | _ => simp [Instr.writes] at hw

/-! ### Writers of a V register -/

/-- An instruction leaves every V register that it does not write. -/
theorem Effect.getV_eq {i : Instr} {s t : State} {z : Nibble} (h : Effect i s t) (hz : ¬ i.WritesReg z) :
    t.getV z = s.getV z := by
  by_cases hregs : Part.regs ∈ i.writes
  · cases i with
    | ldImm | addImm | ldReg | orReg | andReg | xorReg | ldVxDt | rnd =>
      obtain ⟨v, rfl⟩ := h
      exact s.regsSameExcept_setV _ v z (List.mem_singleton.not.2 hz)
    | addReg x | subReg x | shrReg x | subnReg x | shlReg x =>
      obtain ⟨v, f, rfl⟩ := h
      have hz : ¬ (z = x ∨ z = 0xF) := hz
      exact s.regsSameExcept_setVThenFlag x v f z (by simpa using hz)
    | drw =>
      obtain ⟨d, v, rfl⟩ := h
      exact (s.setDisplay d).regsSameExcept_setV flagReg v z (List.mem_singleton.not.2 hz)
    | ldVxK =>
      obtain ⟨v, rfl⟩ | ⟨_, rfl⟩ := h
      · exact s.regsSameExcept_setV _ v z (List.mem_singleton.not.2 hz)
      · rfl
    | loadRegs x =>
      obtain ⟨r, v, hr, _, rfl⟩ := h
      exact hr z (not_le.1 hz)
    | _ => simp [Instr.writes] at hregs
  · exact h.onlyChanges .regs hregs z

theorem step_getV {s t : State} {z : Nibble} (h : step s = .next t) (hne : t.getV z ≠ s.getV z) :
    ∃ i, decode s.fetchWord = .ok i ∧ i.WritesReg z := by
  obtain ⟨_, rfl⟩ | ⟨_, _, rfl⟩ | ⟨_, i, hi, hexec⟩ := step_cases h
  · exact absurd rfl hne
  · exact absurd rfl hne
  · exact ⟨i, hi, not_not.1 fun hz => hne ((exec_effect hexec).getV_eq hz)⟩

/-- Settles O52: by the form that writes VF. FX65 writes it only with x = F, no register number being above. -/
theorem vfChangesOnlyByFlagsOrAsDestination : Obligations.VFChangesOnlyByFlagsOrAsDestination := by
  intro s t h hne
  obtain ⟨i, hi, hw⟩ := step_getV h hne
  cases i with
  | ldImm x kk => obtain rfl : 0xF = x := hw; exact .inl ⟨kk, .inl hi⟩
  | addImm x kk => obtain rfl : 0xF = x := hw; exact .inl ⟨kk, .inr (.inl hi)⟩
  | rnd x kk => obtain rfl : 0xF = x := hw; exact .inl ⟨kk, .inr (.inr hi)⟩
  | ldReg x y => obtain rfl : 0xF = x := hw; exact .inr (.inl ⟨y, .inl hi⟩)
  | orReg x y => obtain rfl : 0xF = x := hw; exact .inr (.inl ⟨y, .inr (.inl hi)⟩)
  | andReg x y => obtain rfl : 0xF = x := hw; exact .inr (.inl ⟨y, .inr (.inr (.inl hi))⟩)
  | xorReg x y => obtain rfl : 0xF = x := hw; exact .inr (.inl ⟨y, .inr (.inr (.inr hi))⟩)
  | addReg x y => exact .inr (.inr (.inl ⟨x, y, .inl hi⟩))
  | subReg x y => exact .inr (.inr (.inl ⟨x, y, .inr (.inl hi)⟩))
  | shrReg x y => exact .inr (.inr (.inl ⟨x, y, .inr (.inr (.inl hi))⟩))
  | subnReg x y => exact .inr (.inr (.inl ⟨x, y, .inr (.inr (.inr (.inl hi)))⟩))
  | shlReg x y => exact .inr (.inr (.inl ⟨x, y, .inr (.inr (.inr (.inr hi)))⟩))
  | drw x y n => exact .inr (.inr (.inr (.inl ⟨x, y, n, hi⟩)))
  | ldVxDt x => obtain rfl : 0xF = x := hw; exact .inr (.inr (.inr (.inr (.inl hi))))
  | ldVxK x => obtain rfl : 0xF = x := hw; exact .inr (.inr (.inr (.inr (.inr (.inl hi)))))
  | loadRegs x =>
    obtain rfl : x = 0xF := le_antisymm (Fin.le_last x) hw
    exact .inr (.inr (.inr (.inr (.inr (.inr hi)))))
  | _ => exact hw.elim

/-! ### Fixed points of a step -/

/-- Putting pc back after the fetch undoes the fetch. -/
theorem State.advance_setPc (s : State) {v : Word} (hv : v = s.pc) : s.advance.setPc v = s := by
  rw [hv]
  rfl

/-- Settles O37: with no key pressed FX0A puts pc back at its own address. -/
theorem keyWaitWithoutAKeyChangesNothing : Obligations.KeyWaitWithoutAKeyChangesNothing := by
  intro s x hf hi hup
  have hwait : s.advance.keyWait x = s := by
    obtain ⟨k, hk, _⟩ | ⟨_, hwait⟩ := s.advance.keyWait_eq x
    · have hdown : s.keyDown k = true := ((s.advance.lowestKey_eq_some k).1 hk).1
      simp [hup k] at hdown
    · exact hwait.trans (s.advance_setPc s.advance_a0)
  rw [step_of_decode_ok hf hi, exec, execLdVxK, hwait]

/-- Settles O53: the word at pc is a jump to pc. -/
theorem jumpToSelfEndsARun : Obligations.JumpToSelfEndsARun := by
  rintro s h ⟨hpc, hword, hf⟩
  have hfetch : s.fetchWord = addrWord 1 h.toNat := by
    rw [State.fetchWord, hpc, zextAddr_toNat, hword]
  rw [step_of_decode_ok hf (hfetch ▸ decode_addrWord_jp h), exec_jp, s.advance_setPc hpc.symm]

end Sys2Proof.Machine
end

section
/-! The invariant (10_state.md sections 4, 9 and 10, 60_exceptions.md R201): reset meets it, every step and transaction
keeps it, and from it none stops the machine. -/

namespace Sys2Proof.Machine

/-! ### Reset -/

theorem State.resetWith_inv {cfg : Config} (hlegal : cfg.Legal) (rnd : Byte) (draws : Nat) :
    (State.resetWith cfg rnd draws).Inv where
  legal := hlegal
  stackLength := List.length_replicate
  spBound := Nat.zero_le _
  memWF := Memory.nil_wf cfg.font
  overflowFull := nofun
  underflowEmpty := nofun
  keyRangePolicy := nofun

/-- The shown default of STACK_DEPTH is legal (00_scope.md R7 (a)). -/
theorem Config.default_legal : Config.default.Legal := by
  constructor <;> decide

/-- Settles O54: the parameters of the reset machine are legal, and every reset state of legal parameters meets the
invariant. -/
theorem resetSatisfiesTheInvariant : Obligations.ResetSatisfiesTheInvariant :=
  State.resetWith_inv Config.default_legal _ _

/-! ### What the invariant rests on -/

/-- The invariant speaks of the parameters, the stack, the memory and the fault alone; the memory may become any canonical
one. -/
theorem State.Inv.of_eq {s t : State} (h : s.Inv) (hcfg : t.cfg = s.cfg) (hstack : t.stack = s.stack)
    (hsp : t.sp = s.sp) (hmem : Memory.WF s.cfg.font t.mem) (hfault : t.fault = s.fault) : t.Inv := by
  obtain ⟨hlegal, hlength, hbound, _, hover, hunder, hkey⟩ := h
  exact ⟨by rwa [hcfg], by rwa [hcfg, hstack], by rwa [hcfg, hsp], by rwa [hcfg],
    by rwa [hcfg, hsp, hfault], by rwa [hsp, hfault], by rwa [hcfg, hfault]⟩

/-- An unfaulted state meets the invariant as soon as its parameters, stack and memory do. -/
theorem State.Inv.of_unfaulted {t : State} (hf : t.fault = .none) (hlegal : t.cfg.Legal)
    (hlength : t.stack.length = t.cfg.stackDepth) (hbound : t.sp ≤ t.cfg.stackDepth)
    (hmem : Memory.WF t.cfg.font t.mem) : t.Inv :=
  ⟨hlegal, hlength, hbound, hmem, by rw [hf]; nofun, by rw [hf]; nofun, by rw [hf]; nofun⟩

/-- A fault entry keeps the invariant where the state allows the code (60_exceptions.md R201). -/
theorem State.Inv.raiseFault {s : State} (h : s.Inv) {f : FaultStatus}
    (hover : f = .stackOverflow → s.sp = s.cfg.stackDepth) (hunder : f = .stackUnderflow → s.sp = 0)
    (hkey : f = .keyIndexRange → s.cfg.keyIndexPolicy = .fault) : (s.raiseFault f).Inv :=
  ⟨h.legal, h.stackLength, h.spBound, h.memWF, hover, hunder, hkey⟩

/-! ### Instructions and steps -/

/-- An instruction run from an unfaulted state keeps the invariant: CALL counts a slot only below STACK_DEPTH, a fault
code is entered only where it may arise, and memory is written only through canonical writes. -/
theorem Effect.inv {i : Instr} {s t : State} (h : Effect i s t) (hinv : s.Inv) (hf : s.fault = .none) : t.Inv := by
  cases i with
  | call =>
    obtain ⟨hsp, rfl⟩ | ⟨hne, hlt, p, rfl⟩ := h
    · exact hinv.raiseFault (fun _ => hsp) nofun nofun
    · exact .of_unfaulted hf hinv.legal ((List.length_set ..).trans hinv.stackLength)
        (lt_of_le_of_ne hinv.spBound hne) hinv.memWF
  | ret =>
    obtain ⟨hsp, rfl⟩ | ⟨_, p, rfl⟩ := h
    · exact hinv.raiseFault nofun (fun _ => hsp) nofun
    · exact .of_unfaulted hf hinv.legal hinv.stackLength ((Nat.sub_le _ _).trans hinv.spBound) hinv.memWF
  | skp | sknp =>
    obtain ⟨c, rfl⟩ | ⟨hpolicy, _, rfl⟩ := h
    · cases c
      · exact hinv
      · exact hinv.of_eq rfl rfl rfl hinv.memWF rfl
    · exact hinv.raiseFault nofun nofun fun _ => hpolicy
  | ldBVx => obtain ⟨m, hm, rfl⟩ := h; exact hinv.of_eq rfl rfl rfl (hm hinv.memWF) rfl
  | storeRegs => obtain ⟨m, v, hm, _, rfl⟩ := h; exact hinv.of_eq rfl rfl rfl (hm hinv.memWF) rfl
  | loadRegs => obtain ⟨r, v, _, _, rfl⟩ := h; exact hinv.of_eq rfl rfl rfl hinv.memWF rfl
  | ldVxK => obtain ⟨_, rfl⟩ | ⟨_, rfl⟩ := h <;> exact hinv.of_eq rfl rfl rfl hinv.memWF rfl
  | sys => exact h ▸ hinv
  | cls => subst h; exact hinv.of_eq rfl rfl rfl hinv.memWF rfl
  | addReg | subReg | shrReg | subnReg | shlReg | drw =>
    obtain ⟨_, _, rfl⟩ := h
    exact hinv.of_eq rfl rfl rfl hinv.memWF rfl
  | _ => obtain ⟨_, rfl⟩ := h; exact hinv.of_eq rfl rfl rfl hinv.memWF rfl

/-- The fetch's advance keeps the invariant. -/
theorem State.Inv.advance {s : State} (h : s.Inv) : s.advance.Inv := h.of_eq rfl rfl rfl h.memWF rfl

/-- Settles O55: by the three cases of a step. -/
theorem stepKeepsTheInvariant : Obligations.StepKeepsTheInvariant := by
  intro s t hinv h
  obtain ⟨_, rfl⟩ | ⟨_, _, rfl⟩ | ⟨hf, i, _, hexec⟩ := step_cases h
  · exact hinv
  · exact hinv.advance
  · exact (exec_effect hexec).inv hinv.advance hf

/-- From a state with the invariant no instruction stops the machine: the slot that CALL writes and the one that RET reads
are slots of the stack. -/
theorem exec_next_of_inv {s : State} (hinv : s.Inv) (i : Instr) : ∃ t, exec i s = .next t := by
  have hlength := hinv.stackLength
  have hbound := hinv.spBound
  cases i with
  | call nnn =>
    rw [exec, execCall]
    split
    · exact ⟨_, rfl⟩
    · next hne =>
      obtain ⟨_, hpush⟩ | ⟨hfull, _⟩ := s.push_eq s.pc
      · rw [hpush]
        exact ⟨_, rfl⟩
      · omega
  | ret =>
    rw [exec, execRet]
    split
    · exact ⟨_, rfl⟩
    · next hne =>
      obtain ⟨_, hpop⟩ | ⟨hempty, _⟩ := s.pop_eq
      · rw [hpop]
        exact ⟨_, rfl⟩
      · omega
  | _ => exact ⟨_, rfl⟩

/-- Settles O56: of the three cases of a step only an instruction could stop the machine. -/
theorem stepAlwaysAnswersNext : Obligations.StepAlwaysAnswersNext := by
  intro s hinv
  by_cases hf : s.fault = .none
  · cases hd : decode s.fetchWord with
    | ok i =>
      obtain ⟨t, ht⟩ := exec_next_of_inv hinv.advance i
      exact ⟨t, (step_of_decode_ok hf hd).trans ht⟩
    | error e => exact ⟨s.advance, step_of_decode_error hf hd⟩
  · exact ⟨s, step_of_faulted hf⟩

/-! ### Transactions -/

theorem State.loadProgram_inv {s : State} (hinv : s.Inv) (bytes : List Byte) : (s.loadProgram bytes).1.Inv := by
  rw [State.loadProgram]
  split
  · exact hinv
  · obtain ⟨m, hm, hwf⟩ := s.writeBytes_only_memory programBase bytes
    rw [hm]
    exact hinv.of_eq rfl rfl rfl (hwf hinv.memWF) rfl

theorem State.hostSetKey_inv {s : State} (hinv : s.Inv) (k : Nat) (pressed : Bool) :
    (s.hostSetKey k pressed).1.Inv := by
  rw [State.hostSetKey]
  split
  · exact hinv.of_eq rfl rfl rfl hinv.memWF rfl
  · exact hinv

/-- From a state with the invariant every transaction answers, and ends in one with it. -/
theorem transact_inv {s : State} (hinv : s.Inv) (tr : Transaction) :
    ∃ u r, transact s tr = .next (u, r) ∧ u.Inv := by
  cases tr with
  | reset => exact ⟨s.hostReset, _, rfl, State.resetWith_inv hinv.legal _ _⟩
  | loadProgram bytes => exact ⟨_, _, rfl, State.loadProgram_inv hinv bytes⟩
  | execute b =>
    have hinv' : ({ s with rnd := b } : State).Inv := hinv.of_eq rfl rfl rfl hinv.memWF rfl
    obtain ⟨t, ht⟩ := stepAlwaysAnswersNext _ hinv'
    have htinv : t.Inv := stepKeepsTheInvariant _ t hinv' ht
    exact ⟨_, _, transact_execute_of_step ht, htinv.of_eq rfl rfl rfl htinv.memWF rfl⟩
  | setKey k pressed => exact ⟨_, _, rfl, State.hostSetKey_inv hinv k pressed⟩
  | tickTimers => exact ⟨s.tickTimers, _, rfl, hinv.of_eq rfl rfl rfl hinv.memWF rfl⟩
  | getDisplay | getDisplayPixel | getFault => exact ⟨s, _, rfl, hinv⟩

/-- No transaction writes the parameters, reset included (log 1). -/
theorem transact_cfg {s u : State} {tr : Transaction} {r : Response} (h : transact s tr = .next (u, r)) :
    u.cfg = s.cfg := by
  rcases transact_samePart h (p := .params) nofun with hsame | rfl | hport | ⟨_, _, i, _, hw⟩
  · exact hsame
  · cases h; rfl
  · cases tr <;> simp [Transaction.writes] at hport
  · cases i <;> simp [Instr.writes] at hw

/-- Settles O57: by induction on the transactions, each of which answers, keeps the invariant and leaves the parameters. -/
theorem transactionSequencesKeepTheInvariant : Obligations.TransactionSequencesKeepTheInvariant := by
  intro trs
  induction trs with
  | nil => exact fun s hinv => ⟨s, [], rfl, hinv, rfl, rfl⟩
  | cons tr trs ih =>
    intro s hinv
    obtain ⟨s₁, r, hfirst, hinv₁⟩ := transact_inv hinv tr
    obtain ⟨u, rs, hrest, hu, hlength, hcfg⟩ := ih s₁ hinv₁
    refine ⟨u, r :: rs, ?_, hu, congrArg Nat.succ hlength, hcfg.trans (transact_cfg hfirst)⟩
    simp only [transactAll, hfirst, hrest]

end Sys2Proof.Machine
end

section
/-! The host transactions (10_state.md R34): reset, load_program, set_key, tick_timers, get_fault and execute, each as one
function of the state. -/

namespace Sys2Proof.Machine

/-! ### Reset -/

theorem State.resetWith_getV (cfg : Config) (rnd : Byte) (draws : Nat) (x : Nibble) :
    (State.resetWith cfg rnd draws).getV x = 0 := by
  simp [State.resetWith, State.getV]

theorem State.resetWith_keyDown (cfg : Config) (rnd : Byte) (draws : Nat) (k : Nibble) :
    (State.resetWith cfg rnd draws).keyDown k = false := by
  simp [State.resetWith, State.keyDown]

/-- At reset every byte reads as its reset content (20_memory.md R53, R54). -/
theorem State.resetWith_readByte (cfg : Config) (rnd : Byte) (draws a : Nat) :
    (State.resetWith cfg rnd draws).readByte a = Memory.unlisted cfg.font (a % 4096) := by
  rw [State.readByte, maskAddr_eq_mod]
  rfl

/-- Row r of glyph d is the byte at 5 * d + r (20_memory.md R53). -/
theorem Memory.unlisted_glyph (font : Font) (d : Fin 16) (r : Fin 5) :
    Memory.unlisted font (5 * d.val + r.val) = (font[d])[r] := by
  have hd : (5 * d.val + r.val) / 5 = d.val := by omega
  have hr : (5 * d.val + r.val) % 5 = r.val := by omega
  rw [Memory.unlisted, dif_pos (by omega)]
  simp only [hd, hr, Fin.getElem_fin]

theorem Memory.unlisted_above_font (font : Font) {a : Nat} (ha : 80 ≤ a) : Memory.unlisted font a = 0 :=
  dif_neg (Nat.not_lt.2 ha)

/-- Settles O1: the reset state's elements are the reset values by its definition; its memory lists no cell, so that it
reads as the font and zero. -/
theorem resetGivesTheResetValues : Obligations.ResetGivesTheResetValues := by
  refine ⟨fun s => ⟨s.hostReset, rfl, State.resetWith_getV s.cfg s.rnd s.draws, rfl, rfl, rfl, rfl, rfl, rfl,
    State.resetWith_keyDown s.cfg s.rnd s.draws, Display.clear_pix, ?glyphs, ?zeros, rfl, rfl, rfl⟩, rfl⟩
  case glyphs =>
    intro d r
    rw [State.hostReset, State.resetWith_readByte, Nat.mod_eq_of_lt (by omega), Memory.unlisted_glyph]
  case zeros =>
    intro a hlow hhigh
    rw [State.hostReset, State.resetWith_readByte, Nat.mod_eq_of_lt (by omega),
      Memory.unlisted_above_font s.cfg.font hlow]

/-- Settles O2: the parameters by definition, and the 80 bytes read from the default font. -/
theorem resetParametersAreTheDefaults : Obligations.ResetParametersAreTheDefaults := by
  refine ⟨rfl, Config.default_legal, rfl, ?_, rfl⟩
  have hread : State.reset.readByte = fun a => Memory.unlisted defaultFont (a % 4096) :=
    funext fun a => State.resetWith_readByte Config.default _ _ a
  rw [hread]
  decide

/-! ### load_program -/

theorem State.loadProgram_accepted (s : State) {bytes : List Byte} (h : bytes.length ≤ programMax) :
    s.loadProgram bytes = (s.writeBytes programBase bytes, .loadOk) :=
  if_neg (Nat.not_lt.2 h)

theorem State.loadProgram_rejected (s : State) {bytes : List Byte} (h : bytes.length > programMax) :
    s.loadProgram bytes = (s, .loadRejected) :=
  if_pos h

/-- Settles O58: an accepted image is one multi-byte store from 0x200, too short to wrap. -/
theorem loadProgramWritesTheImageOrRejects : Obligations.LoadProgramWritesTheImageOrRejects := by
  intro s bytes
  constructor
  · intro hlen
    refine ⟨s.writeBytes programBase bytes, ?_, fun k hk => ?inside, fun a ha houtside => ?outside,
      s.onlyChanges_writeBytes programBase bytes⟩
    · rw [transact, s.loadProgram_accepted hlen]
    case inside => exact s.readByte_writeBytes_inside programBase bytes (by omega) k hk
    case outside =>
      refine s.readByte_writeBytes_outside programBase a bytes fun k hk => ?_
      rw [programBase]
      omega
  · intro hlen
    rw [transact, s.loadProgram_rejected hlen]

/-! ### set_key -/

theorem State.hostSetKey_of_lt (s : State) (k : Nibble) (pressed : Bool) :
    s.hostSetKey k.val pressed = (s.setKey k pressed, .done) := by
  rw [State.hostSetKey, if_pos k.isLt, Fin.ofNat_eq_cast, Fin.cast_val_eq_self]

/-- Settles O59: a legal set_key is one write of one key. -/
theorem setKeySetsOneKey : Obligations.SetKeySetsOneKey := by
  intro s pressed
  constructor
  · intro k
    refine ⟨s.setKey k pressed, congrArg Host.Outcome.next (s.hostSetKey_of_lt k pressed), ?_, fun j hj => ?_,
      s.onlyChanges_setKey k pressed⟩
    · rw [State.setKey_keyDown, if_pos rfl]
    · rw [State.setKey_keyDown, if_neg hj]
  · intro k hk
    exact congrArg Host.Outcome.next (s.hostSetKey_of_not_lt (Nat.not_lt.2 hk) pressed)

/-! ### tick_timers and get_fault -/

/-- A timer counts down and stops at zero, which is the truncated subtraction. -/
theorem tickTimer_toNat (t : Byte) : (tickTimer t).toNat = t.toNat - 1 := by
  have ht := t.isLt
  rw [tickTimer]
  split
  · rw [BitVec.toNat_sub_of_le (BitVec.le_def.2 (by simpa using by omega))]
    rfl
  · omega

/-- Settles O60: tick_timers writes the two timers, whatever the fault. -/
theorem tickDecrementsAndStopsAtZero : Obligations.TickDecrementsAndStopsAtZero := by
  intro s
  exact ⟨⟨s.tickTimers, rfl, tickTimer_toNat s.DT, tickTimer_toNat s.ST, s.onlyChanges_tickTimers⟩, rfl⟩

/-! ### execute -/

/-- Only SYS and an unknown word may emit the event. -/
theorem executeEvent_of_decode_ok {s : State} {i : Instr} (h : decode s.fetchWord = .ok i) (hsys : ∀ nnn, i ≠ .sys nnn) :
    s.executeEvent = none := by
  have hmay : mayEmitUnknown s.fetchWord = false := by
    rw [mayEmitUnknown, h]
    cases i with
    | sys nnn => exact absurd rfl (hsys nnn)
    | _ => rfl
  rw [State.executeEvent, if_neg (by simp [hmay])]

/-- Settles O3: the three cases of a step, and `execute` as the step on the host's byte. -/
theorem stepRunsTheDecodedInstruction : Obligations.StepRunsTheDecodedInstruction := by
  intro s w hw
  obtain rfl : w = s.fetchWord := hw
  refine ⟨fun hf => ⟨step_of_faulted hf, transact_execute_of_faulted hf⟩, fun i hf hi => ?decoded,
    fun e hf he => ?unknown⟩
  case decoded =>
    refine ⟨step_of_decode_ok hf hi, fun rnd t ht => ⟨s.executeEvent, ?_, executeEvent_of_decode_ok hi,
      fun _ _ => executeEvent_eq s⟩⟩
    exact transact_execute_of_step ((step_of_decode_ok (s := { s with rnd := rnd }) hf hi).trans ht)
  case unknown =>
    refine ⟨step_of_decode_error hf he, fun rnd => ⟨s.executeEvent, ?_, executeEvent_eq s⟩⟩
    exact transact_execute_of_step (step_of_decode_error (s := { s with rnd := rnd }) hf he)

end Sys2Proof.Machine
end

section
/-! JP V0, CALL and RET (40_control_flow.md, R101, R102 and R107): what each writes, and the faults of the call stack. -/

namespace Sys2Proof.Machine

theorem exec_jpV0 (nnn : Addr12) (s : State) :
    exec (.jpV0 nnn) s = .next (s.setPc (zextAddr nnn + zextByte (s.getV 0))) := rfl

/-- A 12-bit address and a byte add without wrapping, so the sum is stored unmasked. -/
theorem zextAddr_add_zextByte_toNat (nnn : Addr12) (b : Byte) :
    (zextAddr nnn + zextByte b).toNat = nnn.toNat + b.toNat := by
  have hnnn := nnn.isLt
  have hb := b.isLt
  rw [BitVec.toNat_add, zextAddr_toNat, zextByte_toNat]
  omega

/-- Settles O12: JP V0, nnn is one write of pc. -/
theorem jumpWithOffsetAddsV0 : Obligations.JumpWithOffsetAddsV0 := by
  intro s nnn
  exact ⟨decode_addrWord_jpV0 nnn, _, exec_jpV0 nnn s, zextAddr_add_zextByte_toNat nnn (s.getV 0), s.onlyChanges_setPc _⟩

/-! ### CALL -/

theorem exec_call_of_full (nnn : Addr12) {s : State} (h : s.sp = s.cfg.stackDepth) :
    exec (.call nnn) s = .next (s.raiseFault .stackOverflow) := by
  rw [exec, execCall, if_pos h]

theorem exec_call_of_free (nnn : Addr12) {s : State} (hfree : s.sp ≠ s.cfg.stackDepth) (hslot : s.sp < s.stack.length) :
    exec (.call nnn) s =
      .next (State.setPc { s with stack := s.stack.set s.sp s.pc, sp := s.sp + 1 } (zextAddr nnn)) := by
  rw [exec, execCall, if_neg hfree, State.push, if_pos hslot]

/-- An instruction whose meaning is a fault entry (60_exceptions.md R202). -/
theorem exec_raiseFault_spec {i : Instr} {s : State} {f : FaultStatus} (hexec : exec i s = .next (s.raiseFault f)) :
    ∃ t, exec i s = .next t ∧ t.fault = f ∧ t.pc = s.pc - 2 ∧ s.OnlyChanges t [.fault, .pc] :=
  ⟨s.raiseFault f, hexec, s.raiseFault_fault f, s.raiseFault_pc f, (s.onlyChanges_raiseFault f).mono (by simp)⟩

/-- Settles O13: with a free slot CALL is a write of slot sp, of sp and of pc; with a full stack it is a fault entry. -/
theorem callPushesOrOverflows : Obligations.CallPushesOrOverflows := by
  intro s nnn
  refine ⟨decode_addrWord_call nnn, fun hlength hfree => ?_,
    fun hfull => exec_raiseFault_spec (exec_call_of_full nnn hfull)⟩
  have hslot : s.sp < s.stack.length := by omega
  refine ⟨_, exec_call_of_free nnn hfree.ne hslot, List.getElem?_set_self hslot, List.length_set .., fun j hj => ?_, rfl,
    zextAddr_toNat nnn, s.onlyChanges_setStackSpPc _ _ _⟩
  exact List.getElem?_set_ne hj.symm

/-! ### RET -/

theorem exec_ret_of_empty {s : State} (h : s.sp = 0) : exec .ret s = .next (s.raiseFault .stackUnderflow) := by
  rw [exec, execRet, if_pos h]

theorem exec_ret_of_occupied {s : State} (hsp : s.sp ≠ 0) (hslot : s.sp - 1 < s.stack.length) :
    exec .ret s = .next (State.setPc { s with sp := s.sp - 1 } s.stack[s.sp - 1]) := by
  obtain ⟨_, hpop⟩ | ⟨habsent, _⟩ := s.pop_eq
  · rw [exec, execRet, if_neg hsp, hpop]
  · exact absurd hslot (Nat.not_lt.2 habsent)

/-- Settles O14: with an occupied slot RET is a write of sp and of pc; with an empty stack it is a fault entry. -/
theorem returnPopsOrUnderflows : Obligations.ReturnPopsOrUnderflows := by
  refine ⟨decode_word_ret, fun s => ⟨fun hlength hpos hbound => ?_, fun hempty =>
    exec_raiseFault_spec (exec_ret_of_empty hempty)⟩⟩
  have hslot : s.sp - 1 < s.stack.length := by omega
  exact ⟨_, exec_ret_of_occupied hpos.ne' hslot, List.getElem?_eq_getElem hslot, rfl,
    s.onlyChanges_setSpPc _ _⟩

end Sys2Proof.Machine
end

section
/-! The logic operations, the reverse subtraction and the addition to I (42_alu.md, R122 to R124 and R128; 43_index.md
R132). -/

namespace Sys2Proof.Machine

theorem exec_orReg (x y : Nibble) (s : State) :
    exec (.orReg x y) s = .next (s.setV x (s.getV x ||| s.getV y)) := rfl

theorem exec_andReg (x y : Nibble) (s : State) :
    exec (.andReg x y) s = .next (s.setV x (s.getV x &&& s.getV y)) := rfl

theorem exec_xorReg (x y : Nibble) (s : State) :
    exec (.xorReg x y) s = .next (s.setV x (s.getV x ^^^ s.getV y)) := rfl

theorem exec_subnReg (x y : Nibble) (s : State) :
    exec (.subnReg x y) s = .next (s.setVThenFlag x (s.getV y - s.getV x) (notBorrowFlag (s.getV y) (s.getV x))) := rfl

theorem exec_addIVx (x : Nibble) (s : State) : exec (.addIVx x) s = .next (s.setI (s.I + zextByte (s.getV x))) := rfl

/-- Settles O21: each logic operation is one write to V[x]. -/
theorem logicOperationsLeaveVF : Obligations.LogicOperationsLeaveVF := by
  intro s x y
  exact ⟨decode_nibblesWord_orReg x y, decode_nibblesWord_andReg x y, decode_nibblesWord_xorReg x y,
    exec_setV_spec (P := fun v => ∀ j : Fin 8, v[j] = ((s.getV x)[j] || (s.getV y)[j])) (exec_orReg x y s)
      fun j => BitVec.getElem_or j.isLt,
    exec_setV_spec (P := fun v => ∀ j : Fin 8, v[j] = ((s.getV x)[j] && (s.getV y)[j])) (exec_andReg x y s)
      fun j => BitVec.getElem_and j.isLt,
    exec_setV_spec (P := fun v => ∀ j : Fin 8, v[j] = ((s.getV x)[j] ^^ (s.getV y)[j])) (exec_xorReg x y s)
      fun j => BitVec.getElem_xor j.isLt⟩

/-- Settles O24: SUBN Vx, Vy is SUB with the operands the other way round. -/
theorem reverseSubtractSetsNotBorrow : Obligations.ReverseSubtractSetsNotBorrow := by
  intro s x y
  exact ⟨decode_nibblesWord_subnReg x y,
    exec_setVThenFlag_spec (P := fun v => (v.toNat : Int) = ((s.getV y).toNat - (s.getV x).toNat : Int) % 256)
      (Q := (· = if (s.getV y).toNat ≥ (s.getV x).toNat then 1 else 0)) (exec_subnReg x y s)
      (byte_sub_toNat_emod (s.getV y) (s.getV x)) (notBorrowFlag_eq (s.getV y) (s.getV x))⟩

/-- Settles O27: ADD I, Vx is one write of the 16-bit sum to I. -/
theorem addToIndexWrapsAt16Bits : Obligations.AddToIndexWrapsAt16Bits := by
  intro s x
  refine ⟨decode_byteWord_addIVx x, exec_setI_spec (exec_addIVx x s) ?_⟩
  rw [BitVec.toNat_add, zextByte_toNat]

end Sys2Proof.Machine
end

section
/-! The key instructions (46_keypad.md, R150 to R153). -/

namespace Sys2Proof.Machine

theorem exec_skp (x : Nibble) (s : State) : exec (.skp x) s = .next (s.keySkip x true) := rfl

theorem exec_sknp (x : Nibble) (s : State) : exec (.sknp x) s = .next (s.keySkip x false) := rfl

theorem exec_ldVxK (x : Nibble) (s : State) : exec (.ldVxK x) s = .next (s.keyWait x) := rfl

theorem State.keySkip_of_keyIndex {s : State} {x k : Nibble} (h : s.keyIndex x = some k) (down : Bool) :
    s.keySkip x down = s.skipIf (s.keyDown k == down) := by
  rw [State.keySkip, h]

theorem State.keySkip_of_no_keyIndex {s : State} {x : Nibble} (h : s.keyIndex x = none) (down : Bool) :
    s.keySkip x down = s.raiseFault .keyIndexRange := by
  rw [State.keySkip, h]

/-- Settles O34: with a key index, the low nibble of V[x], both forms are skips on the state of that key. -/
theorem keySkipsTestTheKey : Obligations.KeySkipsTestTheKey := by
  refine fun s x => ⟨decode_byteWord_skp x, decode_byteWord_sknp x, fun k hk hindex => ?_⟩
  have hkey : s.keyIndex x = some k := by
    rw [s.keyIndex_eq_some x hindex]
    exact congrArg some (Fin.ext hk.symm)
  exact ⟨exec_skip_spec ((exec_skp x s).trans (congrArg _ (State.keySkip_of_keyIndex hkey true))) beq_iff_eq,
    exec_skip_spec ((exec_sknp x s).trans (congrArg _ (State.keySkip_of_keyIndex hkey false))) beq_iff_eq⟩

/-- Settles O35: without a key index both forms are a fault entry. -/
theorem keyIndexAbove15FaultsUnderFaultPolicy : Obligations.KeyIndexAbove15FaultsUnderFaultPolicy := by
  intro s x hpolicy hx
  have hkey : s.keyIndex x = none := (s.keyIndex_eq_none x).2 ⟨hpolicy, hx⟩
  exact ⟨exec_raiseFault_spec ((exec_skp x s).trans (congrArg _ (State.keySkip_of_no_keyIndex hkey true))),
    exec_raiseFault_spec ((exec_sknp x s).trans (congrArg _ (State.keySkip_of_no_keyIndex hkey false)))⟩

theorem State.keyWait_of_lowestKey {s : State} {k : Nibble} (h : s.lowestKey = some k) (x : Nibble) :
    s.keyWait x = s.setV x (BitVec.ofNat 8 k.val) := by
  rw [State.keyWait, h]

/-- Settles O36: with a lowest key FX0A is one write of its number to V[x]. -/
theorem keyWaitTakesTheLowestKey : Obligations.KeyWaitTakesTheLowestKey := by
  refine fun s x k => ⟨decode_byteWord_ldVxK x, fun hdown hlowest => ?_⟩
  have hkey : s.lowestKey = some k := (s.lowestKey_eq_some k).2 ⟨hdown, hlowest⟩
  refine exec_setV_spec (P := fun v => v.toNat = k.val)
    ((exec_ldVxK x s).trans (congrArg _ (State.keyWait_of_lowestKey hkey x))) ?_
  rw [BitVec.toNat_ofNat]
  omega

end Sys2Proof.Machine
end

section
/-! Memory (20_memory.md, sections 2, 4 and 5) and the decimal store (48_block_transfer.md R170). -/

namespace Sys2Proof.Machine

/-! ### Reads and writes at masked addresses -/

/-- A read after a write: both addresses are taken modulo 4096. -/
theorem State.readByte_writeByte (s : State) (a b : Nat) (v : Byte) :
    (s.writeByte a v).readByte b = if b % 4096 = a % 4096 then v else s.readByte b := by
  rw [State.readByte_writeByte_mask, maskAddr_eq_mod, maskAddr_eq_mod]

theorem State.readByte_writeByte_of_eq (s : State) {a b : Nat} (v : Byte) (h : b % 4096 = a % 4096) :
    (s.writeByte a v).readByte b = v := by
  rw [State.readByte_writeByte, if_pos h]

theorem State.readByte_writeByte_of_ne (s : State) {a b : Nat} (v : Byte) (h : b % 4096 ≠ a % 4096) :
    (s.writeByte a v).readByte b = s.readByte b := by
  rw [State.readByte_writeByte, if_neg h]

theorem wordOfBytes_toNat (hi lo : Byte) : (wordOfBytes hi lo).toNat = hi.toNat * 256 + lo.toNat := by
  rw [wordOfBytes, BitVec.toNat_append, ← Nat.shiftLeft_add_eq_or_of_lt lo.isLt, Nat.shiftLeft_eq]

/-- Settles O39: a write is one cell at a masked address, and a word is its two bytes. -/
theorem readAfterWriteAtMaskedAddresses : Obligations.ReadAfterWriteAtMaskedAddresses :=
  ⟨State.readByte_writeByte, fun _ a => State.readByte_congr (Nat.mod_mod a 4096).symm,
    fun s a => wordOfBytes_toNat (s.readByte a) (s.readByte (a + 1))⟩

/-- The fetched word is the pair of bytes at pc and pc + 1. -/
theorem State.fetchWord_writeByte (s : State) (a : Nat) (v : Byte) :
    (s.writeByte a v).fetchWord =
      wordOfBytes ((s.writeByte a v).readByte s.pc.toNat) ((s.writeByte a v).readByte (s.pc.toNat + 1)) := rfl

/-- Settles O40: the fetch reads its two bytes after the write; pc and pc + 1 differ modulo 4096, so one write is at most
one of them. -/
theorem fetchSeesEveryWrite : Obligations.FetchSeesEveryWrite := by
  intro s a v
  refine ⟨fun h => ?_, fun h => ?_, fun hhigh hlow => ?_⟩ <;> rw [State.fetchWord_writeByte]
  · rw [s.readByte_writeByte_of_eq v h.symm, s.readByte_writeByte_of_ne v (by omega)]
    rfl
  · rw [s.readByte_writeByte_of_ne v (by omega), s.readByte_writeByte_of_eq v h.symm]
    rfl
  · rw [s.readByte_writeByte_of_ne v hhigh.symm, s.readByte_writeByte_of_ne v hlow.symm]
    rfl

/-! ### The decimal store -/

theorem exec_ldBVx (x : Nibble) (s : State) :
    exec (.ldBVx x) s = .next (s.writeBytes s.I.toNat (decimalDigits (s.getV x))) := rfl

/-- A decimal digit fits a byte. -/
theorem byte_ofNat_toNat {n : Nat} (h : n < 256) : (BitVec.ofNat 8 n : Byte).toNat = n := by
  rw [BitVec.toNat_ofNat, Nat.mod_eq_of_lt h]

/-- Settles O41: LD B, Vx is one store of the three digits at I. -/
theorem decimalStoreWritesThreeDigits : Obligations.DecimalStoreWritesThreeDigits := by
  intro s x
  have hv := (s.getV x).isLt
  have hdigit (k : Nat) (hk : k < 3) := s.readByte_writeBytes_inside s.I.toNat (decimalDigits (s.getV x))
    (by simp [decimalDigits]) k hk
  refine ⟨decode_byteWord_ldBVx x, _, exec_ldBVx x s, ?hundreds, ?tens, ?ones, ?others, s.onlyChanges_writeBytes _ _⟩
  case hundreds => exact (congrArg BitVec.toNat (hdigit 0 (by decide))).trans (byte_ofNat_toNat (by omega))
  case tens => exact (congrArg BitVec.toNat (hdigit 1 (by decide))).trans (byte_ofNat_toNat (by omega))
  case ones => exact (congrArg BitVec.toNat (hdigit 2 (by decide))).trans (byte_ofNat_toNat (by omega))
  case others => exact fun a ha => s.readByte_writeBytes_outside s.I.toNat a (decimalDigits (s.getV x)) ha

end Sys2Proof.Machine
end

section
/-! The sprite draw and the host's reads of the display (45_display.md, R141 to R147). -/

namespace Sys2Proof.Machine

/-! ### The sprite-draw unit as a set of pixels -/

theorem exec_drw (x y n : Nibble) (s : State) :
    exec (.drw x y n) s =
      .next ((s.setDisplay (s.drawSprite x y n).display).setV flagReg (collisionFlag (s.drawSprite x y n).hit)) := rfl

/-- The pixels that the loops of DXYN visit are the pixels under the sprite. -/
theorem State.mem_spritePixels_iff_underSprite (s : State) (x y n : Nibble) (px : Fin 64) (py : Fin 32) :
    (px, py) ∈ s.spritePixels (s.getV x).toNat (s.getV y).toNat (List.range n.val) ↔ s.UnderSprite x y n px py :=
  s.mem_spritePixels _ _ _ px py

theorem State.drawSprite_eq_flipAll (s : State) (x y n : Nibble) :
    s.drawSprite x y n =
      Drawing.flipAll ⟨s.display, false⟩ (s.spritePixels (s.getV x).toNat (s.getV y).toNat (List.range n.val)) :=
  s.drawRows_eq_flipAll _ _ _ _

/-- The loops of DXYN visit no pixel twice, so what they do is what flipping a set of pixels does. -/
theorem State.spritePixels_nodup_of_nibble (s : State) (x y n : Nibble) :
    (s.spritePixels (s.getV x).toNat (s.getV y).toNat (List.range n.val)).Nodup :=
  s.spritePixels_nodup _ _ n.val n.isLt

theorem State.drawSprite_pix_under {s : State} {x y n : Nibble} {px : Fin 64} {py : Fin 32}
    (h : s.UnderSprite x y n px py) : (s.drawSprite x y n).display.pix px py = !s.pix px py := by
  rw [State.drawSprite_eq_flipAll, (Drawing.flipAll_spec _ _ (s.spritePixels_nodup_of_nibble x y n)).1,
    if_pos ((s.mem_spritePixels_iff_underSprite x y n px py).2 h)]
  rfl

theorem State.drawSprite_pix_outside {s : State} {x y n : Nibble} {px : Fin 64} {py : Fin 32}
    (h : ¬ s.UnderSprite x y n px py) : (s.drawSprite x y n).display.pix px py = s.pix px py := by
  rw [State.drawSprite_eq_flipAll, (Drawing.flipAll_spec _ _ (s.spritePixels_nodup_of_nibble x y n)).1,
    if_neg (mt (s.mem_spritePixels_iff_underSprite x y n px py).1 h)]
  rfl

/-- A draw hits exactly if a pixel under the sprite was lit. -/
theorem State.drawSprite_hit_iff (s : State) (x y n : Nibble) :
    (s.drawSprite x y n).hit = true ↔ ∃ px py, s.UnderSprite x y n px py ∧ s.pix px py = true := by
  rw [State.drawSprite_eq_flipAll, (Drawing.flipAll_spec _ _ (s.spritePixels_nodup_of_nibble x y n)).2]
  simp only [Bool.false_eq_true, false_or, Prod.exists, s.mem_spritePixels_iff_underSprite]
  rfl

theorem collisionFlag_eq_one_iff (hit : Bool) : collisionFlag hit = 1 ↔ hit = true := by
  cases hit <;> decide

/-- A collision flag is 0 or 1. -/
theorem collisionFlag_eq_zero_of_ne_one {hit : Bool} (h : collisionFlag hit ≠ 1) : collisionFlag hit = 0 := by
  cases hit
  · rfl
  · exact absurd rfl h

/-! ### One draw -/

/-- The pixels and VF after DXYN. -/
theorem exec_drw_spec {s t : State} {x y n : Nibble} (h : exec (.drw x y n) s = .next t) :
    (∀ px py, s.UnderSprite x y n px py → t.pix px py = !s.pix px py) ∧
    (∀ px py, ¬ s.UnderSprite x y n px py → t.pix px py = s.pix px py) ∧
    (t.getV 0xF = 1 ↔ ∃ px py, s.UnderSprite x y n px py ∧ s.pix px py = true) := by
  obtain rfl := next_inj h
  refine ⟨fun px py => State.drawSprite_pix_under, fun px py => State.drawSprite_pix_outside, ?_⟩
  have hflag : ((s.setDisplay (s.drawSprite x y n).display).setV flagReg
      (collisionFlag (s.drawSprite x y n).hit)).getV 0xF = collisionFlag (s.drawSprite x y n).hit :=
    State.getV_setV_same _ flagReg _
  rw [hflag, collisionFlag_eq_one_iff, State.drawSprite_hit_iff]

/-- Settles O31: DXYN flips the set of pixels under the sprite, and VF is the hit. -/
theorem drawXorsTheSprite : Obligations.DrawXorsTheSprite := by
  intro s x y n
  obtain ⟨hunder, houtside, hflag⟩ := exec_drw_spec (exec_drw x y n s)
  refine ⟨decode_nibblesWord_drw x y n, _, exec_drw x y n s, hunder, houtside, hflag.2, fun hnone => ?_,
    State.regsSameExcept_setV _ flagReg _, ?_⟩
  · have hne := mt hflag.1 hnone
    have hvf := State.getV_setV_same (s.setDisplay (s.drawSprite x y n).display) flagReg
      (collisionFlag (s.drawSprite x y n).hit)
    exact hvf.trans (collisionFlag_eq_zero_of_ne_one fun h => hne (hvf.trans h))
  · exact ((s.onlyChanges_setDisplay _).trans (State.onlyChanges_setV _ flagReg _)).mono (by simp)

/-! ### Two draws -/

/-- The sprite is the same set of pixels in a state with the same I, origin and sprite bytes. -/
theorem State.underSprite_congr {s u : State} {x y n : Nibble} (hI : u.I = s.I)
    (hbytes : ∀ r < n.val, u.readByte (s.I.toNat + r) = s.readByte (s.I.toNat + r)) (hx : u.getV x = s.getV x)
    (hy : u.getV y = s.getV y) (px : Fin 64) (py : Fin 32) : u.UnderSprite x y n px py ↔ s.UnderSprite x y n px py := by
  refine exists_congr fun r => exists_congr fun c => and_congr_right fun hr => ?_
  rw [hI, hbytes r hr, hx, hy]

/-- Settles O32: both draws flip the same set of pixels, so the second undoes the first; and it finds a pixel lit exactly
where the first found it unlit. -/
theorem drawingTwiceRestoresTheDisplay : Obligations.DrawingTwiceRestoresTheDisplay := by
  intro s t u v x y n hst huv hI hbytes hx hy hpix
  obtain ⟨hunder₁, houtside₁, _⟩ := exec_drw_spec hst
  obtain ⟨hunder₂, houtside₂, hflag⟩ := exec_drw_spec huv
  have hsame := State.underSprite_congr hI hbytes hx hy
  constructor
  · intro px py
    by_cases h : s.UnderSprite x y n px py
    · rw [hunder₂ px py ((hsame px py).2 h), hpix, hunder₁ px py h, Bool.not_not]
    · rw [houtside₂ px py (mt (hsame px py).1 h), hpix, houtside₁ px py h]
  · rw [hflag]
    refine exists_congr fun px => exists_congr fun py => ?_
    rw [hsame px py, and_congr_right_iff]
    intro h
    rw [hpix, hunder₁ px py h, Bool.not_eq_true']

/-! ### The host's reads -/

/-- 32 rows of 64 pixels. -/
theorem State.getDisplay_length (s : State) : s.getDisplay.length = 2048 := by
  rw [State.getDisplay, List.length_flatMap]
  simp

theorem State.getDisplay_getElem? (s : State) (x : Fin 64) (y : Fin 32) :
    s.getDisplay[y.val * 64 + x.val]? = some (s.pix x y) := by
  rw [State.getDisplay, rows_getElem?]
  simp [State.pix, Display.pix]

theorem State.getDisplayPixel_inside (s : State) (x : Fin 64) (y : Fin 32) :
    s.getDisplayPixel x.val y.val = .pixel (s.pix x y) := by
  rw [State.getDisplayPixel, if_pos ⟨x.isLt, y.isLt⟩, Fin.ofNat_eq_cast, Fin.cast_val_eq_self, Fin.ofNat_eq_cast,
    Fin.cast_val_eq_self]

/-- Settles O33: the reads answer the rows laid end to end, or one pixel, and the state stays. -/
theorem hostReadsTheDisplay : Obligations.HostReadsTheDisplay := by
  intro s
  refine ⟨⟨s.getDisplay, rfl, s.getDisplay_length, s.getDisplay_getElem?⟩, fun x y => ?_, fun x y h => ?_⟩
  · rw [transact, s.getDisplayPixel_inside]
  · rw [transact, State.getDisplayPixel, if_neg h]

end Sys2Proof.Machine
end

section
/-! The random byte (44_random.md R135, 90_conflicts.md C6; log 6): what CXNN does with it, and that no other instruction
sees it. -/

namespace Sys2Proof.Machine

theorem exec_rnd (x : Nibble) (kk : Byte) (s : State) :
    exec (.rnd x kk) s = .next (s.setV x (s.rnd &&& kk)).drawRnd := rfl

/-- The next free byte is drawn in the model's own source alone. -/
theorem State.onlyChanges_drawRnd (s : State) : s.OnlyChanges s.drawRnd [.random] := s.onlyChanges_setRandom _ _

/-- After an `execute` of CXNN the model's own source is as it was, so that of the instruction's writes only V[x] stays. -/
theorem transact_execute_rnd {s : State} {x : Nibble} {kk : Byte} (hf : s.fault = .none)
    (hi : decode s.fetchWord = .ok (.rnd x kk)) (b : Byte) :
    transact s (.execute b) = .next (s.advance.setV x (b &&& kk), .executed s.executeEvent) :=
  transact_execute_of_step ((step_of_decode_ok (s := { s with rnd := b }) hf hi).trans (exec_rnd x kk _))

/-- Settles O28: CXNN is one write to V[x] and one draw; through the transaction it is the write alone. -/
theorem randomByteIsMasked : Obligations.RandomByteIsMasked := by
  refine fun s x kk => ⟨decode_byteWord_rnd x kk, ⟨_, exec_rnd x kk s, s.getV_setV_same x _, s.regsSameExcept_setV x _,
    (s.onlyChanges_setV x _).trans (State.onlyChanges_drawRnd _)⟩, fun hf hi b => ?_⟩
  refine ⟨_, _, transact_execute_rnd hf hi b, s.advance.getV_setV_same x _, rfl, s.advance.regsSameExcept_setV x _, ?_⟩
  exact ((s.onlyChanges_setPc _).trans (State.onlyChanges_setV _ x _)).mono (by simp)

/-! ### The other instructions do not see the byte -/

/-- The state with another random byte to come. -/
def State.withRnd (s : State) (b : Byte) : State := { s with rnd := b }

/-- An outcome with another random byte to come in its next state. -/
def outcomeWithRnd (b : Byte) : Host.Outcome State Fault Refusal → Host.Outcome State Fault Refusal
  | .next t => .next (t.withRnd b)
  | .fault f => .fault f
  | .refused r => .refused r

theorem State.skipIf_withRnd (s : State) (b : Byte) (c : Bool) : (s.withRnd b).skipIf c = (s.skipIf c).withRnd b := by
  cases c <;> rfl

theorem State.keySkip_withRnd (s : State) (b : Byte) (x : Nibble) (down : Bool) :
    (s.withRnd b).keySkip x down = (s.keySkip x down).withRnd b := by
  have hindex : (s.withRnd b).keyIndex x = s.keyIndex x := rfl
  rw [State.keySkip, State.keySkip, hindex]
  cases s.keyIndex x with
  | none => rfl
  | some k => exact s.skipIf_withRnd b _

theorem State.keyWait_withRnd (s : State) (b : Byte) (x : Nibble) :
    (s.withRnd b).keyWait x = (s.keyWait x).withRnd b := by
  have hlowest : (s.withRnd b).lowestKey = s.lowestKey := rfl
  rw [State.keyWait, State.keyWait, hlowest]
  cases s.lowestKey <;> rfl

theorem State.drawSprite_withRnd (s : State) (b : Byte) (x y n : Nibble) :
    (s.withRnd b).drawSprite x y n = s.drawSprite x y n := by
  rw [State.drawSprite_eq_flipAll, State.drawSprite_eq_flipAll]
  rfl

theorem State.storeV_withRnd (s : State) (b : Byte) (base : Nat) (ks : List Nibble) :
    (s.withRnd b).storeV base ks = (s.storeV base ks).withRnd b := by
  induction ks generalizing s with
  | nil => rfl
  | cons k ks ih => exact ih (s.writeByte (base + k.val) (s.getV k))

theorem State.loadV_withRnd (s : State) (b : Byte) (base : Nat) (ks : List Nibble) :
    (s.withRnd b).loadV base ks = (s.loadV base ks).withRnd b := by
  induction ks generalizing s with
  | nil => rfl
  | cons k ks ih => exact ih (s.setV k (s.readByte (base + k.val)))

theorem State.push_withRnd (s : State) (b : Byte) (v : Word) :
    (s.withRnd b).push v = (s.push v).map (State.withRnd · b) := by
  obtain ⟨hslot, hpush⟩ | ⟨hfull, hpush⟩ := s.push_eq v
  · rw [hpush]
    exact if_pos hslot
  · rw [hpush]
    exact if_neg (Nat.not_lt.2 hfull)

theorem State.pop_withRnd (s : State) (b : Byte) :
    (s.withRnd b).pop = s.pop.map (Prod.map id (State.withRnd · b)) := by
  have hslot : (s.withRnd b).stack[(s.withRnd b).sp - 1]? = s.stack[s.sp - 1]? := rfl
  rw [State.pop, State.pop, hslot]
  cases s.stack[s.sp - 1]? <;> rfl

/-- An instruction other than CXNN does the same whatever the random byte, and leaves it to come. -/
theorem exec_withRnd {i : Instr} (hi : ∀ x kk, i ≠ .rnd x kk) (s : State) (b : Byte) :
    exec i (s.withRnd b) = outcomeWithRnd b (exec i s) := by
  cases i with
  | rnd x kk => exact absurd rfl (hi x kk)
  | call nnn =>
    have hpush : (s.withRnd b).push (s.withRnd b).pc = (s.push s.pc).map (State.withRnd · b) := s.push_withRnd b s.pc
    have hfull : (s.withRnd b).sp = (s.withRnd b).cfg.stackDepth ↔ s.sp = s.cfg.stackDepth := Iff.rfl
    simp only [exec, execCall, hpush, hfull]
    split
    · rfl
    · cases s.push s.pc <;> rfl
  | ret =>
    have hempty : (s.withRnd b).sp = 0 ↔ s.sp = 0 := Iff.rfl
    simp only [exec, execRet, s.pop_withRnd, hempty]
    split
    · rfl
    · cases s.pop <;> rfl
  | skp x => exact congrArg Host.Outcome.next (s.keySkip_withRnd b x true)
  | sknp x => exact congrArg Host.Outcome.next (s.keySkip_withRnd b x false)
  | seImm | sneImm | seReg | sneReg => exact congrArg Host.Outcome.next (s.skipIf_withRnd b _)
  | ldVxK x => exact congrArg Host.Outcome.next (s.keyWait_withRnd b x)
  | drw x y n =>
    rw [exec_drw, exec_drw, s.drawSprite_withRnd]
    rfl
  | storeRegs x =>
    have htransfer : (s.withRnd b).storeV (s.withRnd b).I.toNat (regsUpTo x) =
        (s.storeV s.I.toNat (regsUpTo x)).withRnd b :=
      s.storeV_withRnd b s.I.toNat (regsUpTo x)
    rw [exec_storeRegs, exec_storeRegs, htransfer]
    rfl
  | loadRegs x =>
    have htransfer : (s.withRnd b).loadV (s.withRnd b).I.toNat (regsUpTo x) =
        (s.loadV s.I.toNat (regsUpTo x)).withRnd b :=
      s.loadV_withRnd b s.I.toNat (regsUpTo x)
    rw [exec_loadRegs, exec_loadRegs, htransfer]
    rfl
  | _ => rfl

theorem step_withRnd {s : State} (h : ∀ x kk, decode s.fetchWord ≠ .ok (.rnd x kk)) (b : Byte) :
    step (s.withRnd b) = outcomeWithRnd b (step s) := by
  by_cases hf : s.fault = .none
  · cases hd : decode s.fetchWord with
    | ok i =>
      have hi : ∀ x kk, i ≠ .rnd x kk := fun x kk e => h x kk (e ▸ hd)
      rw [step_of_decode_ok hf hd, step_of_decode_ok (s := s.withRnd b) hf hd]
      exact exec_withRnd hi s.advance b
    | error e =>
      rw [step_of_decode_error hf hd, step_of_decode_error (s := s.withRnd b) hf hd]
      rfl
  · rw [step_of_faulted hf, step_of_faulted (s := s.withRnd b) hf]
    rfl

/-- For a word that is no CXNN, `execute` answers what it answers on the state's own byte. -/
theorem executeWith_of_not_rnd {s : State} (h : ∀ x kk, decode s.fetchWord ≠ .ok (.rnd x kk)) (b : Byte) :
    s.executeWith b = s.executeWith s.rnd := by
  have hstep : step { s with rnd := b } = outcomeWithRnd b (step s) := step_withRnd h b
  rw [State.executeWith, State.executeWith, hstep]
  cases step s <;> rfl

/-- Settles O29: both sides are what `execute` answers on the state's own byte. -/
theorem onlyRandomSeesTheRandomByte : Obligations.OnlyRandomSeesTheRandomByte := by
  intro s r₁ r₂ h
  exact (executeWith_of_not_rnd h r₁).trans (executeWith_of_not_rnd h r₂).symm

end Sys2Proof.Machine
end
